-- ==== Sys2Proof/Word.lean ====
section
/-! DEFINITION. The machine's units of data (spec 00_scope.md R6, R7; 90_conflicts.md C1). -/

namespace Sys2Proof

/-- A Word: an unsigned integer in [0, 65536) (R6 WORD_BITS, C1). -/
abbrev Word := BitVec 16

/-- A byte of the image, of the input queue or of memory's storage (R35, R241). -/
abbrev Byte := BitVec 8

/-- A literal argument: a value of V15 = [0, 32768) (R7, R73). -/
abbrev Literal := BitVec 15

/-- A register index, 0..7 (R21). -/
abbrev Reg := Fin 8

end Sys2Proof
end

