-- ==== Sys2Proof/Machine/Arith.lean ====
section
/-! DEFINITION. The fixed-width arithmetic (spec 40_execution.md R103 to R107, R109): exact on naturals, then
reduced where the rule says so. The operands are whole Words, so R109's case of a register >= 32768 is included. -/

namespace Sys2Proof.Machine

/-- R104 -/
def add15 (u w : Word) : Word := BitVec.ofNat 16 ((u.toNat + w.toNat) % 32768)

/-- R105 -/
def mul15 (u w : Word) : Word := BitVec.ofNat 16 (u.toNat * w.toNat % 32768)

/-- R106, for a divisor other than 0; not reduced (R109). -/
def mod15 (u w : Word) : Word := BitVec.ofNat 16 (u.toNat % w.toNat)

/-- R107 -/
def and15 (u w : Word) : Word := u &&& w

/-- R107 -/
def or15 (u w : Word) : Word := u ||| w

/-- R107: bit 15 of the result is 0. -/
def not15 (u : Word) : Word := ~~~u &&& 0x7FFF#16

end Sys2Proof.Machine
end

