-- ==== Sys2Proof/Syntax.lean ====
section
/-! DEFINITION. The instructions (spec 30_encoding.md R70 to R77). The register or literal that a destination
names is checked when the operand is resolved, not here (R79, R80), so every position holds any Arg. -/

namespace Sys2Proof

/-- An Argument Word, classified as R73 and R92 classify it (assumption log 5). -/
inductive Arg where
  /-- 0..32767: the value itself -/
  | lit (v : Literal)
  /-- 32768..32775: register 0..7 -/
  | reg (i : Reg)
  /-- 32776..65535: invalid, kept as it stands; it faults when it is resolved (R79) -/
  | invalid (w : Word)
  deriving DecidableEq, Repr

/-- One constructor per row of spec/opcode_table.json, in its order, with the operands a, b, c of R76. -/
inductive Instr where
  | halt
  | set (a b : Arg)
  | push (a : Arg)
  | pop (a : Arg)
  | eq (a b c : Arg)
  | gt (a b c : Arg)
  | jmp (a : Arg)
  | jt (a b : Arg)
  | jf (a b : Arg)
  | add (a b c : Arg)
  | mul (a b c : Arg)
  | mod (a b c : Arg)
  | and (a b c : Arg)
  | or (a b c : Arg)
  | not (a b : Arg)
  | rmem (a b : Arg)
  | wmem (a b : Arg)
  | call (a : Arg)
  | ret
  | out (a : Arg)
  /-- `in` of the table (a keyword of Lean) -/
  | input (a : Arg)
  | noop
  deriving DecidableEq, Repr

end Sys2Proof
end

