-- ==== Sys2Proof/WellFormed.lean ====
section
/-! DEFINITION. Which terms of `Instr` are instructions of the machine: those whose arguments are classified as
R73 classifies a Word. A literal or an invalid Word in a destination position is a legal encoding that faults when
it is executed (30_encoding.md R79, R80), so it is well-formed. -/

namespace Sys2Proof

/-- `lit` and `reg` carry their ranges in their types; `invalid` holds a Word >= 32776 only (R73). -/
def Arg.wellFormed : Arg → Bool
  | .lit _ => true
  | .reg _ => true
  | .invalid w => decide (32776 ≤ w.toNat)

/-- Every argument is well-formed. -/
def Instr.wellFormed : Instr → Bool
  | .halt | .ret | .noop => true
  | .push a | .pop a | .jmp a | .call a | .out a | .input a => a.wellFormed
  | .set a b | .jt a b | .jf a b | .not a b | .rmem a b | .wmem a b => a.wellFormed && b.wellFormed
  | .eq a b c | .gt a b c | .add a b c | .mul a b c | .mod a b c | .and a b c | .or a b c =>
    a.wellFormed && b.wellFormed && c.wellFormed

end Sys2Proof
end

