-- ==== Sys2Proof/Decode.lean ====
section
/-! DEFINITION. The decoder and the encoder (spec 30_encoding.md R70 to R85, 40_execution.md R92, R96), and the
byte order of an image (20_memory.md R55). -/

namespace Sys2Proof

/-! ## Argument Words -/

/-- `kind(a)` of R92: how an Argument Word is read. -/
def Arg.ofWord (a : Word) : Arg :=
  if a.toNat < 32768 then .lit (a.setWidth 15)
  else if a.toNat < 32776 then .reg (Fin.ofNat 8 (a.toNat - 32768))
  else .invalid a

/-- The Argument Word of an argument (R73). -/
def Arg.toWord : Arg → Word
  | .lit v => v.setWidth 16
  | .reg i => BitVec.ofNat 16 (32768 + i.val)
  | .invalid w => w

/-! ## The decoder -/

/-- Why there is no instruction at an address (R82). -/
inductive DecodeError where
  /-- the opcode Word itself lies outside memory -/
  | noOpcode
  /-- the opcode Word is in 22..65535 (R78) -/
  | unknownOpcode (op : Word)
  /-- the opcode is legal and one of its operand Words lies outside memory (R96) -/
  | operandMissing (op : Word)
  deriving DecidableEq, Repr

/-- Format F1 of R71: one operand Word. -/
def decodeF1 (mk : Arg → Instr) (op : Word) : List Word → Except DecodeError Instr
  | a :: _ => .ok (mk (.ofWord a))
  | _ => .error (.operandMissing op)

/-- Format F2 of R71: two operand Words. -/
def decodeF2 (mk : Arg → Arg → Instr) (op : Word) : List Word → Except DecodeError Instr
  | a :: b :: _ => .ok (mk (.ofWord a) (.ofWord b))
  | _ => .error (.operandMissing op)

/-- Format F3 of R71: three operand Words. -/
def decodeF3 (mk : Arg → Arg → Arg → Instr) (op : Word) : List Word → Except DecodeError Instr
  | a :: b :: c :: _ => .ok (mk (.ofWord a) (.ofWord b) (.ofWord c))
  | _ => .error (.operandMissing op)

/-- The opcode map of R77 on the Words from the opcode's address to the end of memory, or as many of them as the
longest instruction needs. The whole opcode Word is compared, and its legality is settled before any operand Word
is looked at (R78). -/
def decode : List Word → Except DecodeError Instr
  | [] => .error .noOpcode
  | op :: ws =>
    match op.toNat with
    | 0 => .ok .halt
    | 1 => decodeF2 .set op ws
    | 2 => decodeF1 .push op ws
    | 3 => decodeF1 .pop op ws
    | 4 => decodeF3 .eq op ws
    | 5 => decodeF3 .gt op ws
    | 6 => decodeF1 .jmp op ws
    | 7 => decodeF2 .jt op ws
    | 8 => decodeF2 .jf op ws
    | 9 => decodeF3 .add op ws
    | 10 => decodeF3 .mul op ws
    | 11 => decodeF3 .mod op ws
    | 12 => decodeF3 .and op ws
    | 13 => decodeF3 .or op ws
    | 14 => decodeF2 .not op ws
    | 15 => decodeF2 .rmem op ws
    | 16 => decodeF2 .wmem op ws
    | 17 => decodeF1 .call op ws
    | 18 => .ok .ret
    | 19 => decodeF1 .out op ws
    | 20 => decodeF1 .input op ws
    | 21 => .ok .noop
    | _ => .error (.unknownOpcode op)

/-! ## The encoder -/

/-- The Words of an instruction, the opcode first (R71, R77). -/
def encode : Instr → List Word
  | .halt => [0]
  | .set a b => [1, a.toWord, b.toWord]
  | .push a => [2, a.toWord]
  | .pop a => [3, a.toWord]
  | .eq a b c => [4, a.toWord, b.toWord, c.toWord]
  | .gt a b c => [5, a.toWord, b.toWord, c.toWord]
  | .jmp a => [6, a.toWord]
  | .jt a b => [7, a.toWord, b.toWord]
  | .jf a b => [8, a.toWord, b.toWord]
  | .add a b c => [9, a.toWord, b.toWord, c.toWord]
  | .mul a b c => [10, a.toWord, b.toWord, c.toWord]
  | .mod a b c => [11, a.toWord, b.toWord, c.toWord]
  | .and a b c => [12, a.toWord, b.toWord, c.toWord]
  | .or a b c => [13, a.toWord, b.toWord, c.toWord]
  | .not a b => [14, a.toWord, b.toWord]
  | .rmem a b => [15, a.toWord, b.toWord]
  | .wmem a b => [16, a.toWord, b.toWord]
  | .call a => [17, a.toWord]
  | .ret => [18]
  | .out a => [19, a.toWord]
  | .input a => [20, a.toWord]
  | .noop => [21]

/-- The length in Words, 1 + arity (R71, R72). -/
def Instr.length : Instr → Nat
  | .halt | .ret | .noop => 1
  | .push _ | .pop _ | .jmp _ | .call _ | .out _ | .input _ => 2
  | .set _ _ | .jt _ _ | .jf _ _ | .not _ _ | .rmem _ _ | .wmem _ _ => 3
  | .eq _ _ _ | .gt _ _ _ | .add _ _ _ | .mul _ _ _ | .mod _ _ _ | .and _ _ _ | .or _ _ _ => 4

/-- The opcode map of R77 in code order: the mnemonic (what the host prints for a trace event, R230) and the number
of operand Words. -/
def opcodeTable : List (String × Nat) :=
  [("halt", 0), ("set", 2), ("push", 1), ("pop", 1), ("eq", 3), ("gt", 3), ("jmp", 1), ("jt", 2), ("jf", 2)] ++
  [("add", 3), ("mul", 3), ("mod", 3), ("and", 3), ("or", 3), ("not", 2), ("rmem", 2), ("wmem", 2)] ++
  [("call", 1), ("ret", 0), ("out", 1), ("in", 1), ("noop", 0)]

/-! ## The byte order of an image -/

/-- A Word from its two image bytes: `low + 256 * high` (R55). -/
def wordOfBytes (low high : Byte) : Word := high ++ low

/-- The low byte of a Word, which stands first in an image (R55, R85). -/
def lowByte (w : Word) : Byte := w.extractLsb' 0 8

/-- The high byte of a Word. -/
def highByte (w : Word) : Byte := w.extractLsb' 8 8

/-- The image bytes of a sequence of Words (R85). -/
def imageBytes : List Word → List Byte
  | [] => []
  | w :: ws => lowByte w :: highByte w :: imageBytes ws

/-! ## The host's numbering of an instruction's bits -/

/-- The four Words (the longest instruction) of an instruction whose bits are `w`, the first Word in the least
significant bits, all bits from `nbits` up being zero. -/
def tableWords (nbits w : Nat) : List Word :=
  let v := w % 2 ^ nbits
  [BitVec.ofNat 16 v, BitVec.ofNat 16 (v / 2 ^ 16), BitVec.ofNat 16 (v / 2 ^ 32), BitVec.ofNat 16 (v / 2 ^ 48)]

/-- What the decoder reads from the bits of a row of spec/opcode_table.json. -/
def decodeTableWord (nbits w : Nat) : Option Instr :=
  match decode (tableWords nbits w) with
  | .ok i => some i
  | .error _ => none

end Sys2Proof
end

