-- ==== Sys2Proof/Config.lean ====
section
/-! DEFINITION. What is fixed for one machine (spec 00_scope.md R6, 10_state.md R37): the two configuration
inputs of `create`, the OPEN parameters of the machine, and the host's OPEN character mapping.

The other values of R6's table are written as the spec's pseudocode writes them: VALUE_MOD and MEM_WORDS and
REG_ARG_BASE as 32768, INVALID_ARG_MIN as 32776, MAX_IMAGE_BYTES as 65536, INITIAL_IP as 0. -/

namespace Sys2Proof

/-- REG_HIGH_WRITE (R6, R23, D6): what a register write of a Word >= 32768 does. -/
inductive RegHighWrite where
  /-- the write raises InvalidRegisterValue; the spec's default -/
  | fault
  /-- the raw 16-bit Word is stored -/
  | storeRaw
  deriving DecidableEq, Repr

/-- The parameters of one machine. R37 makes them inputs of the step that nothing changes (assumption log 1). -/
structure Config where
  /-- INTERACTIVE (R37): whether `in` waits (true) or halts (false) on an empty queue (R201, R203) -/
  interactive : Bool
  /-- TRACE (R37): whether every executed instruction produces a trace event (R230) -/
  trace : Bool
  /-- REG_HIGH_WRITE, OPEN (R6, D6) -/
  regHighWrite : RegHighWrite
  /-- STACK_CAPACITY, OPEN (R6, D7): `none` is unbounded -/
  stackCapacity : Option Nat
  deriving DecidableEq, Repr

/-- The machine that `create(false, false)` makes at R6's default parameters. -/
def Config.default : Config :=
  { interactive := false, trace := false, regHighWrite := .fault, stackCapacity := none }

/-- CHAR_DECODE (R6, R200, D13): the host's mapping from output values to characters. OPEN, so nothing can be
proved of it; no rule of the machine applies it (assumption log 8). -/
opaque Config.charDecode : Word → Char

end Sys2Proof
end

