-- ==== Sys2Proof/Machine/State.lean ====
section
/-! DEFINITION. The machine's state (spec 10_state.md R20 to R38) as plain data, the reasons a step can fail to
answer a next state, and the state after reset (70_reset_and_hazards.md R240). -/

namespace Sys2Proof.Machine

/-- RUN_STATE (R31). -/
inductive RunState where
  /-- before the first run -/
  | loaded
  /-- taking steps -/
  | running
  /-- `in` found the queue empty while INTERACTIVE (R203) -/
  | waitInput
  /-- after a graceful halt (R220) -/
  | halted
  /-- after a fatal fault (R211); final -/
  | faulted
  deriving DecidableEq, Repr

/-- The halt reasons (R33). -/
inductive HaltReason where
  | haltInstr
  | retEmpty
  | inputExhausted
  deriving DecidableEq, Repr

/-- The fault kinds (R32). Each is an effect of a step on the status record (R211), not a `Fault` below. -/
inductive FaultKind where
  | unknownOpcode
  | invalidOperand
  | addressOutOfRange
  | stackUnderflow
  | divideByZero
  | invalidRegisterValue
  | stackOverflow
  deriving DecidableEq, Repr

/-- The status record (R31). `none` is the spec's own value NONE (code 0) of HALT_REASON and of FAULT_KIND. -/
structure Status where
  runState : RunState
  haltReason : Option HaltReason
  faultKind : Option FaultKind
  faultAddr : Word
  faultOpcode : Word
  faultOpcodeValid : Bool
  deriving DecidableEq, Repr

/-- What a step hands to the host: an echo of an output value (R200) or a trace event (R230). -/
inductive Event where
  | echo (v : Word)
  | trace (addr opcode : Word)
  deriving DecidableEq, Repr

/-- Memory's storage: the byte at storage address 2k is the low byte of the Word in cell k and the byte at 2k + 1
its high byte, the places these bytes have in an image (R55, R241; assumption log 4). The operations and the
canonical form are in Machine/Memory.lean. -/
abbrev Memory := List Host.Cell

/-- The state of one machine. -/
structure State where
  /-- the parameters, which nothing changes (R37; assumption log 1) -/
  cfg : Config
  /-- x[0..7] (R21) -/
  regs : Vector Word 8
  /-- the instruction pointer (R25) -/
  pc : Word
  /-- the stack, its top at the end (R26) -/
  stack : List Word
  /-- the 32768 Words of memory (R34) -/
  mem : Memory
  /-- the input queue, its head first (R35) -/
  inq : List Byte
  /-- the output sink, oldest first (R36) -/
  outs : List Word
  /-- the status record (R31) -/
  status : Status
  /-- the model's own record of the events handed to the host, oldest first (R200, R230; assumption log 3) -/
  events : List Event
  deriving DecidableEq, Repr

/-- Why the machine has no step (R91): RUN_STATE is not RUNNING. Raised by `step` alone, and safe: the spec gives
the machine no move there. A fatal fault of the spec (R211) is none of these: it is a next state (assumption
log 2). -/
inductive Fault where
  /-- LOADED: the host has not started a run (R250). Raised by `step`; safe. -/
  | notStarted
  /-- WAIT_INPUT: only the host's supply_line wakes the machine (R203). Raised by `step`; safe. -/
  | awaitingInput
  /-- HALTED: only the host's run leaves this state (R232). Raised by `step`; safe. -/
  | stoppedByHalt
  /-- FAULTED: final (R211). Raised by `step`; safe. -/
  | stoppedByFault
  deriving DecidableEq, Repr

/-- What the model gives no meaning to. -/
inductive Refusal where
  /-- an instruction of the table without a meaning in the model. Raised by no arm: every instruction has one. Safe. -/
  | notModelled (mnemonic : String)
  deriving DecidableEq, Repr

/-- What a step answers. -/
abbrev Result := Host.Outcome State Fault Refusal

/-- `create` with the given parameters (R240), before the image is loaded: every cell of memory is 0. -/
def State.create (cfg : Config) : State :=
  { cfg := cfg
    regs := Vector.replicate 8 0
    pc := 0
    stack := []
    mem := []
    inq := []
    outs := []
    status :=
      { runState := .loaded, haltReason := none, faultKind := none
        faultAddr := 0, faultOpcode := 0, faultOpcodeValid := false }
    events := [] }

/-- The machine right after reset: created at the default parameters, with an empty image loaded (R240, R241;
assumption logs 1 and 9). -/
def State.reset : State := State.create Config.default

end Sys2Proof.Machine
end

