-- ==== Sys2Proof/Machine/Memory.lean ====
section
/-! DEFINITION. Memory (spec 20_memory.md R50 to R57): its canonical form, bytes of storage, and the Words in
cells 0..32767. -/

namespace Sys2Proof.Machine

/-- What a storage byte that is not listed reads as: memory is zero-initialised (R34, R240). -/
def Memory.unlisted : Byte := 0

/-- Keys rise strictly from `lo`, lie in the 65536 bytes of storage (R50), and no entry equals an unlisted byte. -/
def Memory.wfFrom (lo : Nat) : Memory → Bool
  | [] => true
  | (k, b) :: m => decide (lo ≤ k) && decide (k < 65536) && (b != unlisted) && wfFrom (k + 1) m

/-- The canonical form, in which equal memories are equal lists. -/
def Memory.wf (m : Memory) : Bool := Memory.wfFrom 0 m

/-- The byte at storage address `k`. -/
def Memory.readByte : Memory → Nat → Byte
  | [], _ => unlisted
  | (j, b) :: m, k => if j = k then b else readByte m k

/-- Drop every entry for storage address `k`. -/
def Memory.eraseByte (m : Memory) (k : Nat) : Memory := m.filter fun c => c.1 != k

/-- Put an entry before the first larger key. -/
def Memory.insertByte : Memory → Nat → Byte → Memory
  | [], k, b => [(k, b)]
  | (j, c) :: m, k, b => if k < j then (k, b) :: (j, c) :: m else (j, c) :: insertByte m k b

/-- Store a byte, keeping the canonical form: the value of an unlisted byte is stored by listing nothing. -/
def Memory.writeByte (m : Memory) (k : Nat) (b : Byte) : Memory :=
  if b = unlisted then m.eraseByte k else (m.eraseByte k).insertByte k b

/-- `mem[a]`, the Word in cell `a`. -/
def Memory.readWord (m : Memory) (a : Nat) : Word := wordOfBytes (m.readByte (2 * a)) (m.readByte (2 * a + 1))

/-- `mem[a] := v`. -/
def Memory.writeWord (m : Memory) (a : Nat) (v : Word) : Memory :=
  (m.writeByte (2 * a) (lowByte v)).writeByte (2 * a + 1) (highByte v)

/-- `MemRead(addr, 1)` (R52): `none` is AddressOutOfRange. -/
def Memory.memRead (m : Memory) (addr : Word) : Option Word :=
  if addr.toNat < 32768 then some (m.readWord addr.toNat) else none

/-- `MemWrite(addr, 1, v)` (R53): `none` is AddressOutOfRange. -/
def Memory.memWrite (m : Memory) (addr v : Word) : Option Memory :=
  if addr.toNat < 32768 then some (m.writeWord addr.toNat v) else none

/-- The storage of an image whose first byte stands at storage address `k` (R241). -/
def Memory.ofImage : Nat → List Byte → Memory
  | _, [] => []
  | k, b :: bs => if b = unlisted then ofImage (k + 1) bs else (k, b) :: ofImage (k + 1) bs

/-- Store Words at consecutive cells. -/
def Memory.writeWords (m : Memory) : Nat → List Word → Memory
  | _, [] => m
  | a, w :: ws => (m.writeWord a w).writeWords (a + 1) ws

/-- The Words in `n` consecutive cells from `a`, cut at the end of memory. -/
def Memory.window (m : Memory) : Nat → Nat → List Word
  | 0, _ => []
  | n + 1, a => if a < 32768 then m.readWord a :: m.window n (a + 1) else []

end Sys2Proof.Machine
end

