-- ==== Sys2Proof/Machine/Ops.lean ====
section
/-! DEFINITION. The named operations on the state: registers and their write guard, the stack, the streams, the
next pc, and the three ways a step ends without completing (Fault, Halt, Wait). -/

namespace Sys2Proof.Machine

/-! ## Registers -/

/-- `x[i]` (spec 10_state.md R21). -/
def State.getReg (s : State) (i : Reg) : Word := s.regs[i]

/-- `x[i] := v`, the store itself; the guard of R23 is `withWriteGuard`. -/
def State.setReg (i : Reg) (v : Word) (s : State) : State := { s with regs := s.regs.set i v }

/-- Whether the guard of R23 lets a register take the Word. -/
def State.mayWrite (s : State) (v : Word) : Bool := decide (v.toNat < 32768) || s.cfg.regHighWrite == .storeRaw

/-! ## The instruction pointer -/

/-- ip_after_decode of an instruction of `n` Words at pc (40_execution.md R97). Not reduced modulo 32768; the
addition is that of a 16-bit pc (R25; assumption log 10). -/
def State.ipAfter (s : State) (n : Nat) : Word := s.pc + BitVec.ofNat 16 n

/-- `pc <- t` (R101): no alignment and no range check. -/
def State.jumpTo (t : Word) (s : State) : State := { s with pc := t }

/-- `pc <- next` for an instruction of `n` Words (R101). -/
def State.advance (n : Nat) (s : State) : State := s.jumpTo (s.ipAfter n)

/-! ## Stack and streams, as stores -/

/-- The stack becomes `st`. -/
def State.setStack (st : List Word) (s : State) : State := { s with stack := st }

/-- Memory becomes `m`. -/
def State.setMem (m : Memory) (s : State) : State := { s with mem := m }

/-- The input queue becomes `q`. -/
def State.setInq (q : List Byte) (s : State) : State := { s with inq := q }

/-- `emit(v)` (48_io_system.md R200): append to the sink and echo to the host, in one step. -/
def State.emit (v : Word) (s : State) : State :=
  { s with outs := s.outs ++ [v], events := s.events ++ [.echo v] }

/-! ## Fault, Halt, Wait -/

/-- Fault entry (60_exceptions.md R211): the status record takes the kind, the pc of the faulting instruction and
the opcode Word there if pc lies in memory. Nothing else changes (R100). -/
def State.faulted (kind : FaultKind) (s : State) : State :=
  { s with status :=
      { s.status with
        runState := .faulted
        faultKind := some kind
        faultAddr := s.pc
        faultOpcode := if s.pc.toNat < 32768 then s.mem.readWord s.pc.toNat else 0
        faultOpcodeValid := decide (s.pc.toNat < 32768) } }

/-- Halt entry (R220): nothing else changes, so pc keeps the address of the halting instruction. -/
def State.halted (reason : HaltReason) (s : State) : State :=
  { s with status := { s.status with runState := .halted, haltReason := some reason } }

/-- Wait (48_io_system.md R203): RUN_STATE becomes WAIT_INPUT and nothing else changes. -/
def State.waiting (s : State) : State := { s with status := { s.status with runState := .waitInput } }

/-- The effect of the host's run transaction (70_reset_and_hazards.md R250). -/
def State.startRun (s : State) : State :=
  { s with status := { s.status with runState := .running, haltReason := none } }

/-- The effect of supply_line on the status record (48_io_system.md R205). -/
def State.resume (s : State) : State := { s with status := { s.status with runState := .running } }

/-- `raise Fault(kind)`: the step ends in the fault's entry, the state `s` before the instruction's writes. -/
def raise (kind : FaultKind) (s : State) : Result := .next (s.faulted kind)

/-! ## Checked operations, in the order a rule writes them -/

/-- The register write guard of R23 before `k`. -/
def withWriteGuard (v : Word) (s : State) (k : Result) : Result :=
  if s.mayWrite v then k else raise .invalidRegisterValue s

/-- `x[i] <- v; pc <- next` for an instruction of `n` Words. -/
def retireReg (i : Reg) (v : Word) (n : Nat) (s : State) : Result :=
  withWriteGuard v s (.next ((s.setReg i v).advance n))

/-- Whether a bounded stack is full (R27). -/
def State.stackFull (s : State) : Bool := s.cfg.stackCapacity == some s.stack.length

/-- `push(v)` (R27) before `k`. -/
def withPushed (v : Word) (s : State) (k : State → Result) : Result :=
  if s.stackFull then raise .stackOverflow s else k (s.setStack (s.stack ++ [v]))

/-- `pop()` (R28) before `k`; `onEmpty` is the calling rule's own answer to an empty stack. -/
def withPopped (s : State) (onEmpty : Result) (k : Word → State → Result) : Result :=
  match s.stack.getLast? with
  | none => onEmpty
  | some v => k v (s.setStack s.stack.dropLast)

/-- `MemRead(addr, 1)` (20_memory.md R52) before `k`. -/
def withMemRead (addr : Word) (s : State) (k : Word → Result) : Result :=
  match s.mem.memRead addr with
  | none => raise .addressOutOfRange s
  | some v => k v

/-- `MemWrite(addr, 1, v)` (20_memory.md R53) before `k`. -/
def withMemWrite (addr v : Word) (s : State) (k : State → Result) : Result :=
  match s.mem.memWrite addr v with
  | none => raise .addressOutOfRange s
  | some m => k (s.setMem m)

/-- `zext_16(b)` (00_scope.md R7). -/
def zext16 (b : Byte) : Word := b.setWidth 16

end Sys2Proof.Machine
end

