-- ==== Sys2Proof/Machine/Operands.lean ====
section
/-! DEFINITION. The operand resolver (spec 40_execution.md R92 to R94, R98) and the operand kinds of R76. -/

namespace Sys2Proof.Machine

/-- `resolve(a)` (R93): `none` is Fault(InvalidOperand). A register's value is returned as it is. -/
def resolve (a : Arg) (s : State) : Option Word :=
  match a with
  | .lit v => some (v.setWidth 16)
  | .reg i => some (s.getReg i)
  | .invalid _ => none

/-- `target(a)` (R94): `none` is Fault(InvalidOperand). It reads no register. -/
def target (a : Arg) : Option Reg :=
  match a with
  | .lit _ => none
  | .reg i => some i
  | .invalid _ => none

/-- Resolve a value operand before `k` (R98). -/
def withValue (a : Arg) (s : State) (k : Word → Result) : Result :=
  match resolve a s with
  | none => raise .invalidOperand s
  | some v => k v

/-- Resolve a destination operand before `k` (R98). -/
def withTarget (a : Arg) (s : State) (k : Reg → Result) : Result :=
  match target a with
  | none => raise .invalidOperand s
  | some i => k i

/-- An operand position with its kind: D or V of R76. -/
inductive Operand where
  | dest (a : Arg)
  | value (a : Arg)
  deriving DecidableEq, Repr

/-- The kinds of an instruction's operand positions, in the order a, b, c: the table of 30_encoding.md R76. -/
def operands : Instr → List Operand
  | .halt | .ret | .noop => []
  | .push a | .jmp a | .call a | .out a => [.value a]
  | .pop a | .input a => [.dest a]
  | .set a b | .not a b | .rmem a b => [.dest a, .value b]
  | .jt a b | .jf a b | .wmem a b => [.value a, .value b]
  | .eq a b c | .gt a b c | .add a b c | .mul a b c | .mod a b c | .and a b c | .or a b c =>
    [.dest a, .value b, .value c]

/-- Whether `target` or `resolve` answers for the operand. -/
def Operand.resolves (s : State) : Operand → Bool
  | .dest a => (target a).isSome
  | .value a => (resolve a s).isSome

/-- Whether stage 3 of the step succeeds: every operand resolves, used or not (R98). -/
def operandsResolve (i : Instr) (s : State) : Bool := (operands i).all (Operand.resolves s)

/-- `D, V, V`: `x[i] <- f u w; pc <- next`, the form of eq, gt, add, mul, and, or. -/
def binaryToReg (f : Word → Word → Word) (a b c : Arg) (s : State) : Result :=
  withTarget a s fun i => withValue b s fun u => withValue c s fun w => retireReg i (f u w) 4 s

/-- `D, V`: `x[i] <- f u; pc <- next`, the form of set and not. -/
def unaryToReg (f : Word → Word) (a b : Arg) (s : State) : Result :=
  withTarget a s fun i => withValue b s fun u => retireReg i (f u) 3 s

/-- `V, V`: jump to the second operand if the test of the first holds, the form of jt and jf. Both operands are
resolved whether or not the branch is taken (D9). -/
def branch (test : Word → Bool) (a b : Arg) (s : State) : Result :=
  withValue a s fun u => withValue b s fun t => .next (if test u then s.jumpTo t else s.advance 3)

end Sys2Proof.Machine
end

