-- ==== Sys2Proof/Machine/Arithmetic.lean ====
section
/-! DEFINITION. add, mul, mod (spec 44_arithmetic.md). -/

namespace Sys2Proof.Machine

/-- R150 -/
def execAdd (a b c : Arg) (s : State) : Result := binaryToReg add15 a b c s

/-- R151 -/
def execMul (a b c : Arg) (s : State) : Result := binaryToReg mul15 a b c s

/-- R152: a zero divisor is checked after the operands and before the write. -/
def execMod (a b c : Arg) (s : State) : Result :=
  withTarget a s fun i => withValue b s fun u => withValue c s fun w =>
    if w = 0 then raise .divideByZero s else retireReg i (mod15 u w) 4 s

end Sys2Proof.Machine
end

