-- ==== Sys2Proof/Machine/Bitwise.lean ====
section
/-! DEFINITION. and, or, not (spec 45_bitwise.md). -/

namespace Sys2Proof.Machine

/-- R160 -/
def execAnd (a b c : Arg) (s : State) : Result := binaryToReg and15 a b c s

/-- R161 -/
def execOr (a b c : Arg) (s : State) : Result := binaryToReg or15 a b c s

/-- R162 -/
def execNot (a b : Arg) (s : State) : Result := unaryToReg not15 a b s

end Sys2Proof.Machine
end

