-- ==== Sys2Proof/Machine/Flags.lean ====
section
/-! DEFINITION. The machine has no flags, condition codes or predicate registers (spec 10_state.md R30). What stands
in their place: the comparison results that eq and gt write to a register, and the test of jt and jf. -/

namespace Sys2Proof.Machine

/-- `eq(u, w)` (40_execution.md R108). -/
def eqResult (u w : Word) : Word := if u = w then 1 else 0

/-- `gt(u, w)`, a comparison of naturals (R108). -/
def gtResult (u w : Word) : Word := if w.toNat < u.toNat then 1 else 0

/-- The condition of jt: any non-zero value is true (43_branch.md R141). -/
def isNonzero (u : Word) : Bool := u != 0

/-- The condition of jf (R142). -/
def isZero (u : Word) : Bool := u == 0

end Sys2Proof.Machine
end

