-- ==== Sys2Proof/Machine/Branch.lean ====
section
/-! DEFINITION. jmp, jt, jf (spec 43_branch.md). Targets are absolute and unchecked (R143). -/

namespace Sys2Proof.Machine

/-- R140 -/
def execJmp (a : Arg) (s : State) : Result := withValue a s fun t => .next (s.jumpTo t)

/-- R141 -/
def execJt (a b : Arg) (s : State) : Result := branch isNonzero a b s

/-- R142 -/
def execJf (a b : Arg) (s : State) : Result := branch isZero a b s

end Sys2Proof.Machine
end

