-- ==== Sys2Proof/Machine/CallReturn.lean ====
section
/-! DEFINITION. call, ret (spec 47_call_return.md). -/

namespace Sys2Proof.Machine

/-- R180: the operand is resolved before the push; the return address is ip_after_decode. -/
def execCall (a : Arg) (s : State) : Result :=
  withValue a s fun t => withPushed (s.ipAfter 2) s fun s' => .next (s'.jumpTo t)

/-- R181: an empty stack halts gracefully, pc staying at the ret. -/
def execRet (s : State) : Result :=
  withPopped s (.next (s.halted .retEmpty)) fun t s' => .next (s'.jumpTo t)

end Sys2Proof.Machine
end

