-- ==== Sys2Proof/Machine/Compare.lean ====
section
/-! DEFINITION. eq, gt (spec 42_compare.md). -/

namespace Sys2Proof.Machine

/-- R130 -/
def execEq (a b c : Arg) (s : State) : Result := binaryToReg eqResult a b c s

/-- R131 -/
def execGt (a b c : Arg) (s : State) : Result := binaryToReg gtResult a b c s

end Sys2Proof.Machine
end

