-- ==== Sys2Proof/Machine/MemoryAccess.lean ====
section
/-! DEFINITION. rmem, wmem (spec 46_memory_access.md). -/

namespace Sys2Proof.Machine

/-- R170 -/
def execRmem (a b : Arg) (s : State) : Result :=
  withTarget a s fun i => withValue b s fun addr => withMemRead addr s fun v => retireReg i v 3 s

/-- R171 -/
def execWmem (a b : Arg) (s : State) : Result :=
  withValue a s fun addr => withValue b s fun v => withMemWrite addr v s fun s' => .next (s'.advance 3)

end Sys2Proof.Machine
end

