-- ==== Sys2Proof/Machine/RegisterStack.lean ====
section
/-! DEFINITION. set, push, pop (spec 41_register_stack.md). -/

namespace Sys2Proof.Machine

/-- R120 -/
def execSet (a b : Arg) (s : State) : Result := unaryToReg (fun v => v) a b s

/-- R121 -/
def execPush (a : Arg) (s : State) : Result :=
  withValue a s fun v => withPushed v s fun s' => .next (s'.advance 2)

/-- R122: the guard fails before anything is stored, so the stack keeps the entry. -/
def execPop (a : Arg) (s : State) : Result :=
  withTarget a s fun i =>
    withPopped s (raise .stackUnderflow s) fun v s' =>
      withWriteGuard v s (.next ((s'.setReg i v).advance 2))

end Sys2Proof.Machine
end

