-- ==== Sys2Proof/Machine/System.lean ====
section
/-! DEFINITION. halt, out, in, noop (spec 48_io_system.md). -/

namespace Sys2Proof.Machine

/-- R190 -/
def execHalt (s : State) : Result := .next (s.halted .haltInstr)

/-- R191 -/
def execOut (a : Arg) (s : State) : Result := withValue a s fun v => .next ((s.emit v).advance 2)

/-- R192: the destination is checked before the queue; an empty queue waits (R203) or halts (R201). -/
def execIn (a : Arg) (s : State) : Result :=
  withTarget a s fun i =>
    match s.inq with
    | [] => .next (if s.cfg.interactive then s.waiting else s.halted .inputExhausted)
    | b :: q => .next (((s.setInq q).setReg i (zext16 b)).advance 2)

/-- R193 -/
def execNoop (s : State) : Result := .next (s.advance 1)

end Sys2Proof.Machine
end

