-- ==== Sys2Proof/Machine/Fetch.lean ====
section
/-! DEFINITION. Stages 1 and 2 of the step (spec 40_execution.md R95, R96): what the decoder is given, the fault of
a decode that fails, the trace event; and where an instruction placed from outside is stored. -/

namespace Sys2Proof.Machine

/-- The Words from pc, as many as the longest instruction has, cut at the end of memory (R96). Memory is read
afresh at every step (20_memory.md R63). -/
def fetchWindow (s : State) : List Word := s.mem.window 4 s.pc.toNat

/-- The fault of stage 1 (R96): a Word of the instruction outside memory, or an unknown opcode. -/
def fetchFault : DecodeError → FaultKind
  | .noOpcode => .addressOutOfRange
  | .unknownOpcode _ => .unknownOpcode
  | .operandMissing _ => .addressOutOfRange

/-- Stage 2 (60_exceptions.md R230): the event (address, opcode), if TRACE. -/
def State.traced (s : State) : State :=
  if s.cfg.trace then { s with events := s.events ++ [.trace s.pc (s.mem.readWord s.pc.toNat)] } else s

/-- Where an instruction placed from outside is stored: at pc if the longest instruction fits there, else at 0
(assumption log 9). -/
def State.placeAt (s : State) : Word := if s.pc.toNat + 4 ≤ 32768 then s.pc else 0

/-- The state with the Words stored at the next fetch and the run started (assumption log 9). -/
def State.withWordsToRun (s : State) (ws : List Word) : State :=
  ((s.setMem (s.mem.writeWords s.placeAt.toNat ws)).jumpTo s.placeAt).startRun

end Sys2Proof.Machine
end

