-- ==== Sys2Proof/Machine/Step.lean ====
section
/-! DEFINITION. One step (spec 40_execution.md R90, R91, R95). Fault, Halt and Wait are next states whose status
record says so (assumption log 2). -/

namespace Sys2Proof.Machine

/-- The step of a RUNNING machine: fetch and decode, trace, then the instruction. -/
def stepRunning (s : State) : Host.Outcome State Fault Refusal :=
  match decode (fetchWindow s) with
  | .ok i => exec i s.traced
  | .error e => raise (fetchFault e) s

/-- A step is taken only when RUN_STATE = RUNNING (R91). -/
def step (s : State) : Host.Outcome State Fault Refusal :=
  match s.status.runState with
  | .running => stepRunning s
  | .loaded => .fault .notStarted
  | .waitInput => .fault .awaitingInput
  | .halted => .fault .stoppedByHalt
  | .faulted => .fault .stoppedByFault

/-- The instruction whose bits are `w` (as spec/opcode_table.json numbers them) stands where the next step fetches,
and the machine is RUNNING (assumption log 9). -/
def State.withFetchWord (s : State) (nbits w : Nat) : State := s.withWordsToRun (tableWords nbits w)

end Sys2Proof.Machine
end

