-- ==== Sys2Proof/Machine/HostPort.lean ====
section
/-! DEFINITION. The host's transactions (spec 10_state.md R39; 48_io_system.md R204 to R206; 70_reset_and_hazards.md
R240, R241, R250). They are not steps of the machine. A transaction the spec does not allow is rejected by name and
gives no state. -/

namespace Sys2Proof.Machine

/-- Why a transaction is rejected. -/
inductive HostReject where
  /-- it is not allowed in this RUN_STATE (R39) -/
  | notAllowedIn (now : RunState)
  /-- supply_line with no byte (R205) -/
  | emptyLine
  /-- an image of more than 65536 bytes (R241) -/
  | imageTooLarge
  /-- an image of odd length (R241, D14) -/
  | imageOddLength
  deriving DecidableEq, Repr

/-- `create` and then `load`, which happens exactly once and before the first run (R240, R241). The length is
checked first; a rejected load gives no machine. -/
def boot (cfg : Config) (image : List Byte) : Except HostReject State :=
  if 65536 < image.length then .error .imageTooLarge
  else if image.length % 2 = 1 then .error .imageOddLength
  else .ok ((State.create cfg).setMem (Memory.ofImage 0 image))

/-- LOADED or HALTED: between runs. -/
def RunState.betweenRuns : RunState → Bool
  | .loaded | .halted => true
  | .running | .waitInput | .faulted => false

/-- A transaction that is allowed between runs only. -/
def betweenRuns (s : State) (t : State) : Except HostReject State :=
  if s.status.runState.betweenRuns then .ok t else .error (.notAllowedIn s.status.runState)

/-- The transactions that change a machine. -/
inductive HostMove where
  | run
  | enqueue (bytes : List Byte)
  | clearInput
  | supplyLine (bytes : List Byte)
  | clearOutput
  deriving DecidableEq, Repr

/-- `run` (R250): resumes at the address pc kept; refused in FAULTED (D21). -/
def hostRun (s : State) : Except HostReject State := betweenRuns s s.startRun

/-- `enqueue(bytes)` (R204): at the tail of the queue. -/
def hostEnqueue (bytes : List Byte) (s : State) : Except HostReject State := betweenRuns s (s.setInq (s.inq ++ bytes))

/-- The host may also clear the queue (R204). -/
def hostClearInput (s : State) : Except HostReject State := betweenRuns s (s.setInq [])

/-- `supply_line(bytes)` (R205): in WAIT_INPUT, at least one byte; the waiting `in` runs again. -/
def hostSupplyLine (bytes : List Byte) (s : State) : Except HostReject State :=
  if s.status.runState = .waitInput then
    if bytes = [] then .error .emptyLine else .ok (s.setInq (s.inq ++ bytes)).resume
  else .error (.notAllowedIn s.status.runState)

/-- `clear_output` (R206). -/
def hostClearOutput (s : State) : Except HostReject State := betweenRuns s { s with outs := [] }

/-- One transaction. -/
def hostMove (m : HostMove) (s : State) : Except HostReject State :=
  match m with
  | .run => hostRun s
  | .enqueue bytes => hostEnqueue bytes s
  | .clearInput => hostClearInput s
  | .supplyLine bytes => hostSupplyLine bytes s
  | .clearOutput => hostClearOutput s

/-- `read_output` (R206, R39): in LOADED, HALTED and FAULTED. -/
def readOutput (s : State) : Except HostReject (List Word) :=
  match s.status.runState with
  | .loaded | .halted | .faulted => .ok s.outs
  | .running | .waitInput => .error (.notAllowedIn s.status.runState)

/-- What the host shows for the output sink, under its own CHAR_DECODE (R200, D13). -/
def outputText (s : State) : List Char := s.outs.map Config.charDecode

/-- The mnemonic to which the host maps the opcode of a trace event (60_exceptions.md R230). -/
def traceMnemonic (opcode : Word) : Option String := opcodeTable[opcode.toNat]?.map Prod.fst

/-! ## The status record as the host reads it: the codes of R31 to R33 -/

/-- RUN_STATE (R31). -/
def RunState.code : RunState → BitVec 3
  | .loaded => 0
  | .running => 1
  | .waitInput => 2
  | .halted => 3
  | .faulted => 4

/-- HALT_REASON (R31, R33); NONE is 0. -/
def haltReasonCode : Option HaltReason → BitVec 2
  | none => 0
  | some .haltInstr => 1
  | some .retEmpty => 2
  | some .inputExhausted => 3

/-- FAULT_KIND (R31, R32); NONE is 0. -/
def faultKindCode : Option FaultKind → BitVec 4
  | none => 0
  | some .unknownOpcode => 1
  | some .invalidOperand => 2
  | some .addressOutOfRange => 3
  | some .stackUnderflow => 4
  | some .divideByZero => 5
  | some .invalidRegisterValue => 6
  | some .stackOverflow => 7

/-- The record of R31 in its widths. -/
structure StatusCodes where
  runState : BitVec 3
  haltReason : BitVec 2
  faultKind : BitVec 4
  faultAddr : BitVec 16
  faultOpcode : BitVec 16
  faultOpcodeValid : BitVec 1
  deriving DecidableEq, Repr

/-- The record's codes. -/
def Status.codes (r : Status) : StatusCodes :=
  { runState := r.runState.code
    haltReason := haltReasonCode r.haltReason
    faultKind := faultKindCode r.faultKind
    faultAddr := r.faultAddr
    faultOpcode := r.faultOpcode
    faultOpcodeValid := BitVec.ofBool r.faultOpcodeValid }

/-- `read_status` (R31, R39): whenever the machine is not RUNNING. -/
def readStatus (s : State) : Except HostReject StatusCodes :=
  if s.status.runState = .running then .error (.notAllowedIn .running) else .ok s.status.codes

end Sys2Proof.Machine
end

