-- ==== Sys2Proof/Machine/RunControl.lean ====
section
/-! DEFINITION. A run (spec 70_reset_and_hazards.md R250, R251): steps until one ends in Halt or Fault, which is the
run's end; a Wait only suspends it until supply_line. The machine has no step limit, so the executors run under fuel
(R251). -/

namespace Sys2Proof.Machine

/-- Up to `fuel` steps, with no line supplied: the first state that is not RUNNING, which is the run's end (HALTED or
FAULTED) or its suspension (WAIT_INPUT); `none` if the fuel ends before that. -/
def runUntilStop : Nat → State → Option State
  | 0, _ => none
  | fuel + 1, s =>
    match step s with
    | .next t => if t.status.runState = .running then runUntilStop fuel t else some t
    | .fault _ => none
    | .refused _ => none

/-- The end of a run (R251) in up to `fuel` steps: the state after the first step whose outcome is Halt or Fault. The
host answers each Wait with the next of `lines`, and the run goes on (R203, R205). `none` if the fuel ends before that,
or at a Wait that no line answers, or whose line is empty and so no answer: such a run does not end. -/
def runToEnd : Nat → List (List Byte) → State → Option State
  | 0, _, _ => none
  | fuel + 1, lines, s =>
    match step s with
    | .next t =>
      match t.status.runState with
      | .halted | .faulted => some t
      | .running => runToEnd fuel lines t
      | .waitInput =>
        match lines with
        | [] => none
        | line :: rest =>
          match hostMove (.supplyLine line) t with
          | .ok u => runToEnd fuel rest u
          | .error _ => none
      | .loaded => none
    | .fault _ => none
    | .refused _ => none

end Sys2Proof.Machine
end

