-- ==== Sys2Proof/Safety.lean ====
section
/-! DEFINITION. What claims are stated in: the invariants of the machine, the causes of its faults and halts, the
states a run ends in, the states it can reach, and a safe step. -/

namespace Sys2Proof.Machine

/-- The status record before any fault (spec 10_state.md R31's reset values of the fault fields). -/
def Status.noFault (r : Status) : Bool :=
  r.faultKind == none && r.faultAddr == 0 && r.faultOpcode == 0 && !r.faultOpcodeValid

/-- HALT_REASON is NONE but in HALTED, and the fault fields are as created but in FAULTED (R31, R211, R220, R250). -/
def Status.coherent (r : Status) : Bool :=
  match r.runState with
  | .loaded | .running | .waitInput => r.haltReason == none && r.noFault
  | .halted => r.haltReason.isSome && r.noFault
  | .faulted => r.haltReason == none && r.faultKind.isSome

/-- In FAULTED the record names the instruction at pc (R211). -/
def State.faultRecordExact (s : State) : Bool :=
  s.status.runState != .faulted || s.status == (s.faulted (s.status.faultKind.getD .unknownOpcode)).status

/-- Under REG_HIGH_WRITE = fault: registers and outputs are in V15, and pc and the stack's entries are at most 32768
(R23, R25, R26, R36). -/
abbrev State.Narrow (s : State) : Prop :=
  s.cfg.regHighWrite = .fault →
    (∀ i : Reg, s.regs[i].toNat < 32768) ∧ s.pc.toNat ≤ 32768 ∧
    (∀ v ∈ s.stack, v.toNat ≤ 32768) ∧ (∀ v ∈ s.outs, v.toNat < 32768)

/-- A bounded stack holds at most STACK_CAPACITY entries (R27). -/
def State.withinCapacity (s : State) : Bool :=
  match s.cfg.stackCapacity with
  | none => true
  | some cap => decide (s.stack.length ≤ cap)

/-! ## Why a step ends as it does -/

/-- The value an instruction is about to write to its destination register, for those of which it can be at least 32768
in some state: the others reduce or mask their result (R104 to R109). -/
def WritesValue (v : Word) (s : State) : Instr → Prop
  | .set _ b => resolve b s = some v
  | .pop _ => ∃ st, s.stack = st ++ [v]
  | .mod _ b c => ∃ u w, resolve b s = some u ∧ resolve c s = some w ∧ v = mod15 u w
  | .and _ b c => ∃ u w, resolve b s = some u ∧ resolve c s = some w ∧ v = and15 u w
  | .or _ b c => ∃ u w, resolve b s = some u ∧ resolve c s = some w ∧ v = or15 u w
  | .rmem _ b => ∃ addr, resolve b s = some addr ∧ addr.toNat < 32768 ∧ v = s.mem.readWord addr.toNat
  | .halt | .push _ | .eq _ _ _ | .gt _ _ _ | .jmp _ | .jt _ _ | .jf _ _ | .add _ _ _ | .mul _ _ _ | .not _ _
  | .wmem _ _ | .call _ | .ret | .out _ | .input _ | .noop => False

/-- The cause of a fault that a decoded instruction raises (R98, R99, R213 to R218). -/
def FaultCause (i : Instr) (s : State) : FaultKind → Prop
  | .unknownOpcode => False
  | .invalidOperand => operandsResolve i s = false
  | .addressOutOfRange => ∃ a b addr, 32768 ≤ addr.toNat ∧
      (i = .rmem a b ∧ resolve b s = some addr ∨ i = .wmem a b ∧ resolve a s = some addr)
  | .stackUnderflow => (∃ a, i = .pop a) ∧ s.stack = []
  | .divideByZero => ∃ a b c, i = .mod a b c ∧ resolve c s = some 0
  | .invalidRegisterValue => s.cfg.regHighWrite = .fault ∧ ∃ v, 32768 ≤ v.toNat ∧ WritesValue v s i
  | .stackOverflow => (∃ a, i = .push a ∨ i = .call a) ∧ s.cfg.stackCapacity = some s.stack.length

/-- In HALTED: the instruction at pc, where a graceful halt leaves it, and what made it halt (R220). -/
def HaltCause (s : State) : HaltReason → Prop
  | .haltInstr => decode (fetchWindow s) = .ok .halt
  | .retEmpty => decode (fetchWindow s) = .ok .ret ∧ s.stack = []
  | .inputExhausted => (∃ i : Reg, decode (fetchWindow s) = .ok (.input (.reg i))) ∧ s.inq = [] ∧ s.cfg.interactive = false

/-- The state a run has ended in (R251): HALTED with its reason, or FAULTED with its record (R211, R220). -/
def State.RunEnded (s : State) : Prop :=
  (s.status.runState = .halted ∧ ∃ reason, s.status.haltReason = some reason ∧ HaltCause s reason) ∨
    s.status.runState = .faulted ∧ ∃ kind, s = s.faulted kind

/-- The state a run is suspended in (R203): WAIT_INPUT at an `in` that found the queue of an interactive machine
empty. -/
def State.RunSuspended (s : State) : Prop :=
  s.status.runState = .waitInput ∧ (∃ i : Reg, decode (fetchWindow s) = .ok (.input (.reg i))) ∧ s.inq = [] ∧
    s.cfg.interactive = true

/-! ## The whole invariant and the reachable states -/

/-- The invariant of the machine. -/
structure State.Inv (s : State) : Prop where
  memory : s.mem.wf = true
  narrow : s.Narrow
  status : s.status.coherent = true
  record : s.faultRecordExact = true
  capacity : s.withinCapacity = true

/-- The states of a machine that the host boots, and then moves only as 10_state.md R39 allows. -/
inductive Reachable : State → Prop where
  | boot {cfg : Config} {image : List Byte} {s : State} (h : boot cfg image = .ok s) : Reachable s
  | step {s t : State} (hs : Reachable s) (h : step s = .next t) : Reachable t
  | host {s t : State} (m : HostMove) (hs : Reachable s) (h : hostMove m s = .ok t) : Reachable t

/-- The events the console shows; the others are trace events (R200, R230). -/
def Event.isEcho : Event → Bool
  | .echo _ => true
  | .trace _ _ => false

/-- A step that completes, halts gracefully or waits: it does not end in a fatal fault (R210). -/
def SafeStep (s : State) : Prop := ∃ t, step s = .next t ∧ t.status.runState ≠ .faulted

end Sys2Proof.Machine
end

