-- ==== Sys2Proof/Certificates/Slice0/Obligations.lean ====
section
/-! DEFINITION. The statements for the provers. `R<n>` are the spec's rules.

Every statement is about every state, every value of the OPEN parameters in `cfg`, and every form of an operand. A
result is written as the whole next state, so each result statement is a completion statement and a frame at once.
`s.faulted kind` is the fault's entry, whose whole effect `FaultsArePreciseAndFinal` states: the record and its
kinds are the spec's decision D12, a next state by assumption log 2. A clause that rests on another of the spec's own
decisions (D3 to D17, D21 to D23: assumption log 6) names it, and its statement has basis 'derived'. `s.pc + n` is
ip_after_decode wherever an instruction can be fetched (assumption log 10). -/

open Sys2Proof Sys2Proof.Machine

/-! ## Encoding -/

/-- 30_encoding.md R70, R71, R73, R77: no bit of an encoding is dropped, whatever Words follow it. -/
def Obligations.DecodeReadsBackEncode : Prop :=
  ∀ (i : Instr) (rest : List Word), i.wellFormed = true → decode (encode i ++ rest) = .ok i

/-- The other direction: what is decoded encodes to the Words it was read from, as many as its length says. -/
def Obligations.EncodeReadsBackDecode : Prop :=
  ∀ (ws : List Word) (i : Instr), decode ws = .ok i →
    i.wellFormed = true ∧ i.length ≤ ws.length ∧ encode i = ws.take i.length

/-- R78, R212: opcode Words above 21, and no others, are illegal, before any operand Word is looked at. The step
ends in UnknownOpcode and records the Word. That nothing else changes, and the record itself, are the spec's own
decisions D10 and D12 (R100, R211; assumption log 6). -/
def Obligations.IllegalOpcodesFault : Prop :=
  (∀ (op : Word) (ws : List Word), decode (op :: ws) = .error (.unknownOpcode op) ↔ 21 < op.toNat) ∧
  ∀ s : State, s.status.runState = .running → s.pc.toNat < 32768 → 21 < (s.mem.readWord s.pc.toNat).toNat →
    step s = .next { s with status :=
      { s.status with
        runState := .faulted, faultKind := some .unknownOpcode, faultAddr := s.pc
        faultOpcode := s.mem.readWord s.pc.toNat, faultOpcodeValid := true } }

/-- R92: the three readings of an Argument Word. -/
def Obligations.ArgumentWordsAreClassified : Prop :=
  ∀ a : Word,
    (a.toNat < 32768 → ∃ v : Literal, v.toNat = a.toNat ∧ Arg.ofWord a = .lit v) ∧
    (∀ i : Reg, a.toNat = 32768 + i.val → Arg.ofWord a = .reg i) ∧
    (32776 ≤ a.toNat → Arg.ofWord a = .invalid a)

/-- Words written out from the encodings of R71 and R77 decode to the instructions they stand for. -/
def Obligations.SampleWordsDecode : Prop :=
  decode [0] = .ok .halt ∧
  decode [1, 32768, 5] = .ok (.set (.reg 0) (.lit 5)) ∧
  decode [4, 32768, 32769, 7] = .ok (.eq (.reg 0) (.reg 1) (.lit 7)) ∧
  decode [8, 32768, 50] = .ok (.jf (.reg 0) (.lit 50)) ∧
  decode [9, 32769, 32769, 48] = .ok (.add (.reg 1) (.reg 1) (.lit 48)) ∧
  decode [14, 32775, 32767] = .ok (.not (.reg 7) (.lit 32767)) ∧
  decode [16, 32768, 32776] = .ok (.wmem (.reg 0) (.invalid 32776)) ∧
  decode [17, 50] = .ok (.call (.lit 50)) ∧
  decode [20, 5] = .ok (.input (.lit 5))

/-! ## Operand resolution and faults -/

/-- R93, R94 (a literal destination: D4): `resolve` and `target` of every Argument Word, the fault among their
results; under REG_HIGH_WRITE = fault a value is in V15 in every state that keeps the invariant. -/
def Obligations.OperandsResolve : Prop :=
  ∀ (a : Word) (s : State),
    (∀ k : Word → Result,
      (a.toNat < 32768 → withValue (.ofWord a) s k = k a) ∧
      (∀ i : Reg, a.toNat = 32768 + i.val → withValue (.ofWord a) s k = k s.regs[i]) ∧
      (32776 ≤ a.toNat → withValue (.ofWord a) s k = .next (s.faulted .invalidOperand))) ∧
    ∀ k : Reg → Result,
      (a.toNat < 32768 → withTarget (.ofWord a) s k = .next (s.faulted .invalidOperand)) ∧
      (∀ i : Reg, a.toNat = 32768 + i.val → withTarget (.ofWord a) s k = k i) ∧
      (32776 ≤ a.toNat → withTarget (.ofWord a) s k = .next (s.faulted .invalidOperand)) ∧
      (s.Narrow → s.cfg.regHighWrite = .fault → ∀ v, resolve (.ofWord a) s = some v → v.toNat < 32768)

/-- R79, R80, R98, R213 (D4, D8, D9): an operand that does not resolve ends every instruction in InvalidOperand,
before anything else the instruction does, whether or not the operand would have been used. -/
def Obligations.UnresolvedOperandFaults : Prop :=
  ∀ (i : Instr) (s : State), operandsResolve i s = false → exec i s = .next (s.faulted .invalidOperand)

/-- R211, whole (D10, D12, D21): the fault's entry writes the status record and nothing else; a step that ends in a
fault is precise (every other field, but for a trace event already handed to the host, holds its value from before
the step, and the record names the pc and opcode from before it); FAULTED is final, for the step and for every
transaction of the host that changes a machine. -/
def Obligations.FaultsArePreciseAndFinal : Prop :=
  (∀ (kind : FaultKind) (s : State),
    s.faulted kind = { s with status :=
      { runState := .faulted, haltReason := s.status.haltReason, faultKind := some kind, faultAddr := s.pc
        faultOpcode := if s.pc.toNat < 32768 then s.mem.readWord s.pc.toNat else 0
        faultOpcodeValid := decide (s.pc.toNat < 32768) } }) ∧
  (∀ s t : State, step s = .next t → t.status.runState = .faulted →
    (∃ kind : FaultKind, t.status =
      { runState := .faulted, haltReason := s.status.haltReason, faultKind := some kind, faultAddr := s.pc
        faultOpcode := if s.pc.toNat < 32768 then s.mem.readWord s.pc.toNat else 0
        faultOpcodeValid := decide (s.pc.toNat < 32768) }) ∧
    { t with status := s.status, events := s.events } = s ∧ (t.events = s.events ∨ t.events = s.traced.events)) ∧
  ∀ s : State, s.status.runState = .faulted →
    step s = .fault .stoppedByFault ∧ ∀ m : HostMove, hostMove m s = .error (.notAllowedIn .faulted)

/-! ## What each instruction does -/

/-- R120, with the guard of R23 (D6). The last clause: under REG_HIGH_WRITE = fault the guard never fires in a
state that keeps the invariant. -/
def Obligations.SetCopiesAValue : Prop :=
  ∀ (a b : Arg) (s : State),
    encode (.set a b) = [1, a.toWord, b.toWord] ∧
    (∀ (i : Reg) (v : Word), target a = some i → resolve b s = some v →
      ((v.toNat < 32768 ∨ s.cfg.regHighWrite = .storeRaw) →
        exec (.set a b) s = .next { s with regs := s.regs.set i v, pc := s.pc + 3 }) ∧
      (32768 ≤ v.toNat → s.cfg.regHighWrite = .fault →
        exec (.set a b) s = .next (s.faulted .invalidRegisterValue))) ∧
    ((target a = none ∨ resolve b s = none) → exec (.set a b) s = .next (s.faulted .invalidOperand)) ∧
    (s.Narrow → s.cfg.regHighWrite = .fault → ∀ v, resolve b s = some v → v.toNat < 32768)

/-- R121; the overflow of a bounded stack is R27's (D7). -/
def Obligations.PushAppendsToTheStack : Prop :=
  ∀ (a : Arg) (s : State),
    encode (.push a) = [2, a.toWord] ∧
    (∀ v : Word, resolve a s = some v →
      (s.cfg.stackCapacity ≠ some s.stack.length →
        exec (.push a) s = .next { s with stack := s.stack ++ [v], pc := s.pc + 2 }) ∧
      (s.cfg.stackCapacity = some s.stack.length → exec (.push a) s = .next (s.faulted .stackOverflow))) ∧
    (resolve a s = none → exec (.push a) s = .next (s.faulted .invalidOperand))

/-- R122 (D6, D10): the faults in their order; a fault leaves the entry on the stack. -/
def Obligations.PopTakesTheTop : Prop :=
  ∀ (a : Arg) (s : State),
    encode (.pop a) = [3, a.toWord] ∧
    (∀ (i : Reg) (st : List Word) (v : Word), target a = some i → s.stack = st ++ [v] →
      ((v.toNat < 32768 ∨ s.cfg.regHighWrite = .storeRaw) →
        exec (.pop a) s = .next { s with regs := s.regs.set i v, stack := st, pc := s.pc + 2 }) ∧
      (32768 ≤ v.toNat → s.cfg.regHighWrite = .fault →
        exec (.pop a) s = .next (s.faulted .invalidRegisterValue))) ∧
    (∀ i : Reg, target a = some i → s.stack = [] → exec (.pop a) s = .next (s.faulted .stackUnderflow)) ∧
    (target a = none → exec (.pop a) s = .next (s.faulted .invalidOperand))

/-- R130, R131 -/
def Obligations.EqAndGtWriteOneOrZero : Prop :=
  ∀ (a b c : Arg) (s : State),
    encode (.eq a b c) = [4, a.toWord, b.toWord, c.toWord] ∧
    encode (.gt a b c) = [5, a.toWord, b.toWord, c.toWord] ∧
    (∀ (i : Reg) (u w : Word), target a = some i → resolve b s = some u → resolve c s = some w →
      exec (.eq a b c) s = .next { s with regs := s.regs.set i (if u = w then 1 else 0), pc := s.pc + 4 } ∧
      exec (.gt a b c) s =
        .next { s with regs := s.regs.set i (if u.toNat > w.toNat then 1 else 0), pc := s.pc + 4 }) ∧
    ((target a = none ∨ resolve b s = none ∨ resolve c s = none) →
      exec (.eq a b c) s = .next (s.faulted .invalidOperand) ∧
      exec (.gt a b c) s = .next (s.faulted .invalidOperand))

/-- R140 -/
def Obligations.JmpSetsThePc : Prop :=
  ∀ (a : Arg) (s : State),
    encode (.jmp a) = [6, a.toWord] ∧
    (∀ t : Word, resolve a s = some t → exec (.jmp a) s = .next { s with pc := t }) ∧
    (resolve a s = none → exec (.jmp a) s = .next (s.faulted .invalidOperand))

/-- R141, R142 (D9): both operands are resolved whether or not the branch is taken. -/
def Obligations.BranchesTestForZero : Prop :=
  ∀ (a b : Arg) (s : State),
    encode (.jt a b) = [7, a.toWord, b.toWord] ∧ encode (.jf a b) = [8, a.toWord, b.toWord] ∧
    (∀ u t : Word, resolve a s = some u → resolve b s = some t →
      exec (.jt a b) s = .next { s with pc := if u = 0 then s.pc + 3 else t } ∧
      exec (.jf a b) s = .next { s with pc := if u = 0 then t else s.pc + 3 }) ∧
    ((resolve a s = none ∨ resolve b s = none) →
      exec (.jt a b) s = .next (s.faulted .invalidOperand) ∧
      exec (.jf a b) s = .next (s.faulted .invalidOperand))

/-- R150, R104 -/
def Obligations.AddIsModulo32768 : Prop :=
  ∀ (a b c : Arg) (s : State),
    encode (.add a b c) = [9, a.toWord, b.toWord, c.toWord] ∧
    (∀ (i : Reg) (u w : Word), target a = some i → resolve b s = some u → resolve c s = some w →
      exec (.add a b c) s = .next
        { s with regs := s.regs.set i (BitVec.ofNat 16 ((u.toNat + w.toNat) % 32768)), pc := s.pc + 4 }) ∧
    ((target a = none ∨ resolve b s = none ∨ resolve c s = none) →
      exec (.add a b c) s = .next (s.faulted .invalidOperand))

/-- R151, R105: the exact product is reduced; wrapping it to 16 bits first gives the same. -/
def Obligations.MulIsModulo32768 : Prop :=
  ∀ (a b c : Arg) (s : State),
    encode (.mul a b c) = [10, a.toWord, b.toWord, c.toWord] ∧
    (∀ (i : Reg) (u w : Word), target a = some i → resolve b s = some u → resolve c s = some w →
      exec (.mul a b c) s = .next
        { s with regs := s.regs.set i (BitVec.ofNat 16 (u.toNat * w.toNat % 32768)), pc := s.pc + 4 } ∧
      (u * w).toNat % 32768 = u.toNat * w.toNat % 32768) ∧
    ((target a = none ∨ resolve b s = none ∨ resolve c s = none) →
      exec (.mul a b c) s = .next (s.faulted .invalidOperand))

/-- R152 (D5, D6): a zero divisor faults; another gives the unsigned remainder, unreduced. Its last clauses are the
guard of R23 for a remainder >= 32768, which only store_raw's registers can give (R109). -/
def Obligations.ModIsTheRemainder : Prop :=
  ∀ (a b c : Arg) (s : State),
    encode (.mod a b c) = [11, a.toWord, b.toWord, c.toWord] ∧
    (∀ (i : Reg) (u w : Word), target a = some i → resolve b s = some u → resolve c s = some w →
      (w = 0 → exec (.mod a b c) s = .next (s.faulted .divideByZero)) ∧
      (w ≠ 0 → (u.toNat % w.toNat < 32768 ∨ s.cfg.regHighWrite = .storeRaw) →
        exec (.mod a b c) s =
          .next { s with regs := s.regs.set i (BitVec.ofNat 16 (u.toNat % w.toNat)), pc := s.pc + 4 }) ∧
      (w ≠ 0 → 32768 ≤ u.toNat % w.toNat → s.cfg.regHighWrite = .fault →
        exec (.mod a b c) s = .next (s.faulted .invalidRegisterValue))) ∧
    ((target a = none ∨ resolve b s = none ∨ resolve c s = none) →
      exec (.mod a b c) s = .next (s.faulted .invalidOperand))

/-- R160, R161; the guard of R23 for a result >= 32768 (R109, D6). -/
def Obligations.AndOrAreBitwise : Prop :=
  ∀ (a b c : Arg) (s : State),
    encode (.and a b c) = [12, a.toWord, b.toWord, c.toWord] ∧
    encode (.or a b c) = [13, a.toWord, b.toWord, c.toWord] ∧
    (∀ (i : Reg) (u w : Word), target a = some i → resolve b s = some u → resolve c s = some w →
      (((u &&& w).toNat < 32768 ∨ s.cfg.regHighWrite = .storeRaw) →
        exec (.and a b c) s = .next { s with regs := s.regs.set i (u &&& w), pc := s.pc + 4 }) ∧
      (((u ||| w).toNat < 32768 ∨ s.cfg.regHighWrite = .storeRaw) →
        exec (.or a b c) s = .next { s with regs := s.regs.set i (u ||| w), pc := s.pc + 4 }) ∧
      (32768 ≤ (u &&& w).toNat → s.cfg.regHighWrite = .fault →
        exec (.and a b c) s = .next (s.faulted .invalidRegisterValue)) ∧
      (32768 ≤ (u ||| w).toNat → s.cfg.regHighWrite = .fault →
        exec (.or a b c) s = .next (s.faulted .invalidRegisterValue)) ∧
      (u.toNat < 32768 → w.toNat < 32768 → (u &&& w).toNat < 32768 ∧ (u ||| w).toNat < 32768)) ∧
    ((target a = none ∨ resolve b s = none ∨ resolve c s = none) →
      exec (.and a b c) s = .next (s.faulted .invalidOperand) ∧
      exec (.or a b c) s = .next (s.faulted .invalidOperand))

/-- R162, R107: for an operand in V15 the result is 32767 minus it; bit 15 is never set. -/
def Obligations.NotIsA15BitComplement : Prop :=
  ∀ (a b : Arg) (s : State),
    encode (.not a b) = [14, a.toWord, b.toWord] ∧
    (∀ (i : Reg) (u : Word), target a = some i → resolve b s = some u →
      exec (.not a b) s = .next { s with regs := s.regs.set i (~~~u &&& 0x7FFF#16), pc := s.pc + 3 } ∧
      (~~~u &&& 0x7FFF#16).toNat < 32768 ∧
      (u.toNat < 32768 → (~~~u &&& 0x7FFF#16).toNat = 32767 - u.toNat)) ∧
    ((target a = none ∨ resolve b s = none) → exec (.not a b) s = .next (s.faulted .invalidOperand))

/-- R170 (D6): the faults in their order. -/
def Obligations.RmemReadsOneWord : Prop :=
  ∀ (a b : Arg) (s : State),
    encode (.rmem a b) = [15, a.toWord, b.toWord] ∧
    (∀ (i : Reg) (addr v : Word), target a = some i → resolve b s = some addr →
      s.mem.readWord addr.toNat = v →
      (addr.toNat < 32768 → (v.toNat < 32768 ∨ s.cfg.regHighWrite = .storeRaw) →
        exec (.rmem a b) s = .next { s with regs := s.regs.set i v, pc := s.pc + 3 }) ∧
      (addr.toNat < 32768 → 32768 ≤ v.toNat → s.cfg.regHighWrite = .fault →
        exec (.rmem a b) s = .next (s.faulted .invalidRegisterValue)) ∧
      (32768 ≤ addr.toNat → exec (.rmem a b) s = .next (s.faulted .addressOutOfRange))) ∧
    ((target a = none ∨ resolve b s = none) → exec (.rmem a b) s = .next (s.faulted .invalidOperand))

/-- R171: the store, and every other cell of memory as before. -/
def Obligations.WmemWritesOneWord : Prop :=
  ∀ (a b : Arg) (s : State),
    encode (.wmem a b) = [16, a.toWord, b.toWord] ∧
    (∀ addr v : Word, resolve a s = some addr → resolve b s = some v →
      (addr.toNat < 32768 →
        ∃ m : Memory, exec (.wmem a b) s = .next { s with mem := m, pc := s.pc + 3 } ∧
          m.readWord addr.toNat = v ∧ ∀ x : Nat, x ≠ addr.toNat → m.readWord x = s.mem.readWord x) ∧
      (32768 ≤ addr.toNat → exec (.wmem a b) s = .next (s.faulted .addressOutOfRange))) ∧
    ((resolve a s = none ∨ resolve b s = none) → exec (.wmem a b) s = .next (s.faulted .invalidOperand))

/-- R180 (D7): the return address is ip_after_decode; a faulting call pushes nothing. -/
def Obligations.CallPushesTheReturnAddress : Prop :=
  ∀ (a : Arg) (s : State),
    encode (.call a) = [17, a.toWord] ∧
    (∀ t : Word, resolve a s = some t →
      (s.cfg.stackCapacity ≠ some s.stack.length →
        exec (.call a) s = .next { s with stack := s.stack ++ [s.pc + 2], pc := t }) ∧
      (s.cfg.stackCapacity = some s.stack.length → exec (.call a) s = .next (s.faulted .stackOverflow))) ∧
    (resolve a s = none → exec (.call a) s = .next (s.faulted .invalidOperand))

/-- R181 (D11): an empty stack is a graceful halt, with pc at the ret. -/
def Obligations.RetPopsThePc : Prop :=
  encode .ret = [18] ∧
  ∀ s : State,
    (∀ (st : List Word) (t : Word), s.stack = st ++ [t] → exec .ret s = .next { s with stack := st, pc := t }) ∧
    (s.stack = [] → exec .ret s =
      .next { s with status := { s.status with runState := .halted, haltReason := some .retEmpty } })

/-- R190 (D11); a cell that holds 0 decodes as halt. -/
def Obligations.HaltStopsGracefully : Prop :=
  encode .halt = [0] ∧ (∀ ws : List Word, decode (0 :: ws) = .ok .halt) ∧
  ∀ s : State, exec .halt s =
    .next { s with status := { s.status with runState := .halted, haltReason := some .haltInstr } }

/-- R191, R200: the value itself is recorded in the sink and echoed. (The echo's place, `events`, is the model's own
record of what the host is handed: assumption log 3.) -/
def Obligations.OutEmitsTheValue : Prop :=
  ∀ (a : Arg) (s : State),
    encode (.out a) = [19, a.toWord] ∧
    (∀ v : Word, resolve a s = some v →
      exec (.out a) s =
        .next { s with outs := s.outs ++ [v], events := s.events ++ [.echo v], pc := s.pc + 2 }) ∧
    (resolve a s = none → exec (.out a) s = .next (s.faulted .invalidOperand))

/-- R192, R201, R203 (D8, D11, D15): the head byte, or with an empty queue a wait or a graceful halt; the
destination is checked first. -/
def Obligations.InTakesOneByte : Prop :=
  ∀ (a : Arg) (s : State),
    encode (.input a) = [20, a.toWord] ∧
    (∀ i : Reg, target a = some i →
      (∀ (b : Byte) (q : List Byte), s.inq = b :: q →
        exec (.input a) s = .next { s with regs := s.regs.set i (b.setWidth 16), inq := q, pc := s.pc + 2 }) ∧
      (s.inq = [] → s.cfg.interactive = true →
        exec (.input a) s = .next { s with status := { s.status with runState := .waitInput } }) ∧
      (s.inq = [] → s.cfg.interactive = false →
        exec (.input a) s =
          .next { s with status := { s.status with runState := .halted, haltReason := some .inputExhausted } })) ∧
    (target a = none → exec (.input a) s = .next (s.faulted .invalidOperand))

/-- R193 -/
def Obligations.NoopOnlyAdvances : Prop :=
  encode .noop = [21] ∧ ∀ s : State, exec .noop s = .next { s with pc := s.pc + 1 }

/-! ## The step -/

/-- R95: a RUNNING machine whose Words at pc decode to `i` runs `i`, after the trace event if TRACE. (That the
event is kept in `events` is the model's choice: assumption log 3.) -/
def Obligations.StepRunsTheDecodedInstruction : Prop :=
  ∀ (s : State) (i : Instr), s.status.runState = .running → decode (fetchWindow s) = .ok i →
    step s = exec i
      (if s.cfg.trace then { s with events := s.events ++ [.trace s.pc (s.mem.readWord s.pc.toNat)] } else s)

/-- R63, R95, R96: an instruction whose Words stand in memory at pc is what the step runs, whoever wrote them and
whenever. -/
def Obligations.StepRunsTheStoredInstruction : Prop :=
  ∀ (s : State) (i : Instr), s.status.runState = .running → i.wellFormed = true →
    s.pc.toNat + i.length ≤ 32768 →
    (∀ (k : Nat) (w : Word), (encode i)[k]? = some w → s.mem.readWord (s.pc.toNat + k) = w) →
    step s = exec i s.traced

/-- The bits of a table row, placed by the host's interface in any state, are what the very next step decodes and runs
(assumption log 9: the model's own convention, not a rule of the spec). -/
def Obligations.PlacedWordIsRunNext : Prop :=
  ∀ (s : State) (nbits w : Nat) (i : Instr), decodeTableWord nbits w = some i →
    step (s.withFetchWord nbits w) = exec i (s.withFetchWord nbits w).traced

/-- R96, R214 (D3): a Word of the instruction outside memory. The opcode is recorded if it could be read. -/
def Obligations.FetchOutsideMemoryFaults : Prop :=
  ∀ s : State, s.status.runState = .running →
    (32768 ≤ s.pc.toNat →
      step s = .next { s with status :=
        { s.status with
          runState := .faulted, faultKind := some .addressOutOfRange, faultAddr := s.pc
          faultOpcode := 0, faultOpcodeValid := false } }) ∧
    ∀ i : Instr, s.pc.toNat < 32768 → (encode i).head? = some (s.mem.readWord s.pc.toNat) →
      32768 < s.pc.toNat + i.length →
      step s = .next { s with status :=
        { s.status with
          runState := .faulted, faultKind := some .addressOutOfRange, faultAddr := s.pc
          faultOpcode := s.mem.readWord s.pc.toNat, faultOpcodeValid := true } }

/-- R91 (the four faults are the model's names: assumption log 2): the machine has a step exactly when RUN_STATE =
RUNNING. In particular no instruction, on any operands, is refused or stops the model. -/
def Obligations.StepsExactlyWhenRunning : Prop :=
  ∀ s : State,
    (s.status.runState = .running → ∃ t, step s = .next t) ∧
    (s.status.runState = .loaded → step s = .fault .notStarted) ∧
    (s.status.runState = .waitInput → step s = .fault .awaitingInput) ∧
    (s.status.runState = .halted → step s = .fault .stoppedByHalt) ∧
    (s.status.runState = .faulted → step s = .fault .stoppedByFault)

/-- R90, R96, R99, R100, R101, R220 (D10, D12): a step completes its decoded instruction and leaves the status record
alone; or it ends in Fault, of the fetch or of the instruction for a cause of that kind; or in Halt for one of the
three reasons of R33; or in Wait. In all but the first nothing but the status record (and the trace) changes. -/
def Obligations.StepHasOneOfFourOutcomes : Prop :=
  ∀ s t : State, step s = .next t →
    (∃ i, decode (fetchWindow s) = .ok i ∧ operandsResolve i s = true ∧ exec i s.traced = .next t ∧
      t.status = s.status) ∨
    (∃ e, decode (fetchWindow s) = .error e ∧ t = s.faulted (fetchFault e)) ∨
    (∃ i kind, decode (fetchWindow s) = .ok i ∧ FaultCause i s kind ∧ t = s.traced.faulted kind) ∨
    (decode (fetchWindow s) = .ok .halt ∧ t = s.traced.halted .haltInstr) ∨
    (decode (fetchWindow s) = .ok .ret ∧ s.stack = [] ∧ t = s.traced.halted .retEmpty) ∨
    ∃ i : Reg, decode (fetchWindow s) = .ok (.input (.reg i)) ∧ s.inq = [] ∧
      t = if s.cfg.interactive then s.traced.waiting else s.traced.halted .inputExhausted

/-! ## Frames -/

/-- R22: a register changes only if it is the destination of the instruction. -/
def Obligations.OnlyDestinationRegistersChange : Prop :=
  ∀ (i : Instr) (s t : State), exec i s = .next t →
    ∀ j : Reg, (∀ a, Operand.dest a ∈ operands i → target a ≠ some j) → t.regs[j] = s.regs[j]

/-- R51, on the bytes of the model's storage (assumption log 4): no instruction but wmem changes a byte of memory,
and wmem changes only the two bytes of the Word at the address its first operand resolves to. -/
def Obligations.OnlyWmemChangesMemory : Prop :=
  ∀ (i : Instr) (s t : State), exec i s = .next t →
    ((∀ a b, i ≠ .wmem a b) → ∀ k : Nat, t.mem.readByte k = s.mem.readByte k) ∧
    ∀ (a b : Arg) (addr : Word), i = .wmem a b → resolve a s = some addr →
      ∀ k : Nat, k ≠ 2 * addr.toNat → k ≠ 2 * addr.toNat + 1 → t.mem.readByte k = s.mem.readByte k

/-- R26, R27, R28: only push, pop, call and ret change the stack, by one entry at its top or not at all. -/
def Obligations.OnlyStackInstructionsChangeTheStack : Prop :=
  ∀ (i : Instr) (s t : State), exec i s = .next t →
    ((∀ a, i ≠ .push a ∧ i ≠ .pop a ∧ i ≠ .call a) → i ≠ .ret → t.stack = s.stack) ∧
    (t.stack = s.stack ∨ (∃ v, t.stack = s.stack ++ [v]) ∨ ∃ v, s.stack = t.stack ++ [v])

/-- R35, R36: only `in` takes from the input queue, its head; only `out` adds to the output sink and echoes. -/
def Obligations.OnlyInAndOutTouchTheStreams : Prop :=
  ∀ (i : Instr) (s t : State), exec i s = .next t →
    ((∀ a, i ≠ .input a) → t.inq = s.inq) ∧ (t.inq = s.inq ∨ ∃ b, s.inq = b :: t.inq) ∧
    ((∀ a, i ≠ .out a) → t.outs = s.outs ∧ t.events = s.events)

/-- R101: the next pc of an instruction other than a control transfer is ip_after_decode, and an instruction that
ends in Fault, Halt or Wait leaves pc alone (R25). -/
def Obligations.OnlyControlTransfersSetThePc : Prop :=
  ∀ (i : Instr) (s t : State), s.status.runState = .running → exec i s = .next t →
    (t.status.runState ≠ .running → t.pc = s.pc) ∧
    (t.status.runState = .running →
      (∀ a b, i ≠ .jmp a ∧ i ≠ .jt a b ∧ i ≠ .jf a b ∧ i ≠ .call a) → i ≠ .ret →
      t.pc = s.pc + BitVec.ofNat 16 i.length)

/-- R37: nothing changes the configuration. -/
def Obligations.ConfigurationNeverChanges : Prop :=
  (∀ s t : State, step s = .next t → t.cfg = s.cfg) ∧
  ∀ (m : HostMove) (s t : State), hostMove m s = .ok t → t.cfg = s.cfg

/-! ## Invariants -/

/-- Every step keeps memory's canonical form (assumption log 4), in which equal memories are equal lists. -/
def Obligations.MemoryStaysCanonical : Prop :=
  ∀ s t : State, s.mem.wf = true → step s = .next t → t.mem.wf = true

/-- R23, R25, R26, R36, R93: under REG_HIGH_WRITE = fault every register and output stays in V15, every stack entry
and pc at most 32768. -/
def Obligations.ValuesStayNarrow : Prop :=
  ∀ s t : State, s.Narrow → step s = .next t → t.Narrow

/-- R31, R211, R220: HALT_REASON and the fault fields agree with RUN_STATE, and the fault record names the
instruction at pc. -/
def Obligations.StatusStaysCoherent : Prop :=
  ∀ s t : State, s.status.coherent = true → s.faultRecordExact = true → step s = .next t →
    t.status.coherent = true ∧ t.faultRecordExact = true

/-- R27: a bounded stack never holds more than STACK_CAPACITY entries. -/
def Obligations.StackStaysWithinCapacity : Prop :=
  ∀ s t : State, s.withinCapacity = true → step s = .next t → t.withinCapacity = true

/-- The invariant holds at reset, and of a machine created with any parameters. -/
def Obligations.InvariantHoldsAtReset : Prop :=
  State.reset.Inv ∧ ∀ cfg : Config, (State.create cfg).Inv

/-- From every state that meets the whole invariant, a step or a host transaction that R39 allows (assumption log 7)
gives a state that meets it; every machine booted from any image, at any parameters, meets it; so every state such a
machine reaches does. -/
def Obligations.ReachableStatesKeepTheInvariant : Prop :=
  (∀ s t : State, s.Inv → (step s = .next t ∨ ∃ m, hostMove m s = .ok t) → t.Inv) ∧
  (∀ (cfg : Config) (image : List Byte) (s : State), boot cfg image = .ok s → s.Inv) ∧
  ∀ s : State, Reachable s → s.Inv

/-- R37, R230: TRACE has no effect on semantics. With it switched, the step has the same outcome, and the same next
state but for the flag itself and the trace events (in the model's own record `events`: assumption log 3). -/
def Obligations.TraceHasNoEffect : Prop :=
  ∀ (s : State) (flag : Bool),
    (∀ f, step s = .fault f → step { s with cfg := { s.cfg with trace := flag } } = .fault f) ∧
    ∀ t : State, step s = .next t →
      ∃ t' : State, step { s with cfg := { s.cfg with trace := flag } } = .next t' ∧
        t' = { t with cfg := { t.cfg with trace := flag }, events := t'.events } ∧
        t'.events.filter Event.isEcho = t.events.filter Event.isEcho

/-- R36, R200, R230: a step only appends to the output sink and to the events it hands to the host, at most one
value and at most a trace event before its echo. (`events` is the model's own record: assumption log 3.) -/
def Obligations.OutputIsAppendOnly : Prop :=
  ∀ s t : State, step s = .next t →
    ∃ vs : List Word, vs.length ≤ 1 ∧ t.outs = s.outs ++ vs ∧
      (t.events = s.traced.events ++ vs.map Event.echo ∨ t.events = s.events)

/-! ## Instructions together -/

/-- R180, R181: a call followed by ret returns to the instruction after the call with the stack as it was. -/
def Obligations.RetUndoesCall : Prop :=
  ∀ (a : Arg) (s : State) (dst : Word), resolve a s = some dst → s.cfg.stackCapacity ≠ some s.stack.length →
    ∃ t : State, exec (.call a) s = .next t ∧ t.pc = dst ∧ exec .ret t = .next { s with pc := s.pc + 2 }

/-- R121, R122: the value read back equals the value pushed. -/
def Obligations.PopReadsBackPush : Prop :=
  ∀ (a d : Arg) (i : Reg) (v : Word) (s : State), resolve a s = some v → target d = some i →
    s.cfg.stackCapacity ≠ some s.stack.length → (v.toNat < 32768 ∨ s.cfg.regHighWrite = .storeRaw) →
    ∃ t : State, exec (.push a) s = .next t ∧
      exec (.pop d) t = .next { s with regs := s.regs.set i v, pc := s.pc + 2 + 2 }

/-- R63, R261: the very next fetch sees the Word a wmem wrote, and every Word of the window it did not write as it
was. -/
def Obligations.NextFetchSeesTheWrite : Prop :=
  ∀ (a b : Arg) (s t : State) (addr v : Word), resolve a s = some addr → resolve b s = some v →
    addr.toNat < 32768 → exec (.wmem a b) s = .next t →
    ∀ k : Nat, k < 4 → t.pc.toNat + k < 32768 →
      (fetchWindow t)[k]? = some (if t.pc.toNat + k = addr.toNat then v else s.mem.readWord (t.pc.toNat + k))

/-- R203, R205 (D15, D22): the line wakes the waiting `in`, whose next step takes the line's first byte into the
register that the `in` names, and completes. -/
def Obligations.SuppliedLineCompletesTheIn : Prop :=
  ∀ (s t : State) (b : Byte) (line : List Byte), step s = .next t → t.status.runState = .waitInput →
    ∃ (i : Reg) (u v : State), decode (fetchWindow s) = .ok (.input (.reg i)) ∧
      hostMove (.supplyLine (b :: line)) t = .ok u ∧ step u = .next v ∧
      v.regs = s.regs.set i (b.setWidth 16) ∧ v.inq = line ∧ v.pc = s.pc + 2 ∧
      v.status = s.status ∧ v.stack = s.stack ∧ v.mem = s.mem ∧ v.outs = s.outs

/-- R250 (D11): a run started after a HALT_INSTR or RET_EMPTY halt halts again at once, in the same state. -/
def Obligations.HaltedRunHaltsAgain : Prop :=
  ∀ s t : State, step s = .next t → t.status.runState = .halted → t.status.haltReason ≠ some .inputExhausted →
    ∃ u v : State, hostMove .run t = .ok u ∧ step u = .next v ∧ { v with events := t.events } = t

/-- R250 (D11): after an INPUT_EXHAUSTED halt the host may enqueue and start a new run, whose first step re-executes
the `in` at the pc that was kept: it takes the first byte enqueued into the register that the `in` names. With nothing
enqueued it halts again in the same state. -/
def Obligations.RerunTakesTheEnqueuedByte : Prop :=
  ∀ s t : State, step s = .next t → t.status.runState = .halted → t.status.haltReason = some .inputExhausted →
    (∀ (b : Byte) (bytes : List Byte), ∃ (i : Reg) (u v w : State), decode (fetchWindow s) = .ok (.input (.reg i)) ∧
      hostMove (.enqueue (b :: bytes)) t = .ok u ∧ hostMove .run u = .ok v ∧ step v = .next w ∧
      w.regs = s.regs.set i (b.setWidth 16) ∧ w.inq = bytes ∧ w.pc = s.pc + 2 ∧
      w.status = { s.status with haltReason := none } ∧ w.stack = s.stack ∧ w.mem = s.mem ∧ w.outs = s.outs) ∧
    ∃ u v : State, hostMove .run t = .ok u ∧ step u = .next v ∧ { v with events := t.events } = t

/-- R250, R251 (D12, D15): the steps of a run stop in HALTED or FAULTED, with the reason or the record of the
instruction at pc, which is the run's end, or in WAIT_INPUT at an `in`, which suspends it; more fuel stops in the same
state. The end, past every Wait the host answers, is HALTED or FAULTED; where no Wait comes first it is where the
steps stop; a Wait that no line answers has no end, and an answered one goes on to the end of what follows. An
instruction that jumps to itself never ends. -/
def Obligations.RunEndIsDefinite : Prop :=
  (∀ (n m : Nat) (s t : State), runUntilStop n s = some t → n ≤ m →
    runUntilStop m s = some t ∧ (t.RunEnded ∨ t.RunSuspended)) ∧
  (∀ (n m : Nat) (lines : List (List Byte)) (s t : State), runToEnd n lines s = some t → n ≤ m →
    runToEnd m lines s = some t ∧ t.RunEnded) ∧
  (∀ (n : Nat) (s t : State), runUntilStop n s = some t →
    (t.RunEnded → ∀ lines, runToEnd n lines s = some t) ∧
    (t.RunSuspended →
      (∀ m, runToEnd m [] s = none) ∧
      ∀ (line : List Byte) (lines : List (List Byte)) (u : State), hostMove (.supplyLine line) t = .ok u →
        ∀ (m : Nat) (e : State), runToEnd m lines u = some e → runToEnd (n + m) (line :: lines) s = some e)) ∧
  ∀ (s : State) (a : Arg), s.status.runState = .running → decode (fetchWindow s) = .ok (.jmp a) →
    resolve a s = some s.pc → ∀ (n : Nat) (lines : List (List Byte)), runToEnd n lines s = none

/-! ## Reset, boot and the host -/

/-- R240, R24, R25, R29 (D2, D12, D16): what creation leaves, for any parameters. -/
def Obligations.CreationClearsTheState : Prop :=
  ∀ cfg : Config,
    (State.create cfg).cfg = cfg ∧ (∀ i : Reg, (State.create cfg).regs[i] = 0) ∧ (State.create cfg).pc = 0 ∧
    (State.create cfg).stack = [] ∧ (∀ a : Nat, (State.create cfg).mem.readWord a = 0) ∧
    (State.create cfg).inq = [] ∧ (State.create cfg).outs = [] ∧
    (State.create cfg).status =
      { runState := .loaded, haltReason := none, faultKind := none
        faultAddr := 0, faultOpcode := 0, faultOpcodeValid := false } ∧
    State.reset = State.create Config.default

/-- R241 (D14, C8): an image is little-endian Words from address 0, the rest of memory zero; one too large or of
odd length is rejected, the size first. Nothing else differs from creation. -/
def Obligations.BootLoadsTheImage : Prop :=
  ∀ (cfg : Config) (image : List Byte),
    (65536 < image.length → boot cfg image = .error .imageTooLarge) ∧
    (image.length ≤ 65536 → image.length % 2 = 1 → boot cfg image = .error .imageOddLength) ∧
    (image.length ≤ 65536 → image.length % 2 = 0 →
      ∃ m : Memory, boot cfg image = .ok { State.create cfg with mem := m } ∧ m.wf = true ∧
        ∀ k : Nat, k < 32768 →
          (m.readWord k).toNat = (image.getD (2 * k) 0).toNat + 256 * (image.getD (2 * k + 1) 0).toNat)

/-- R241: the machine booted from an image of 0 bytes halts on the first step of its run. -/
def Obligations.EmptyImageHaltsAtOnce : Prop :=
  ∀ cfg : Config, ∃ s u v : State,
    boot cfg [] = .ok s ∧ hostMove .run s = .ok u ∧ step u = .next v ∧
    v.status.runState = .halted ∧ v.status.haltReason = some .haltInstr ∧ v.pc = 0

/-- R39, R204, R205, R206, R250 (D15, D21, D23; assumption log 7): the host's transactions, each with its effect
where it is allowed and its rejection elsewhere. -/
def Obligations.HostTransactionsFollowTheTable : Prop :=
  ∀ (s : State) (bytes : List Byte),
    ((s.status.runState = .loaded ∨ s.status.runState = .halted) →
      hostMove .run s = .ok { s with status := { s.status with runState := .running, haltReason := none } } ∧
      hostMove (.enqueue bytes) s = .ok { s with inq := s.inq ++ bytes } ∧
      hostMove .clearInput s = .ok { s with inq := [] } ∧
      hostMove .clearOutput s = .ok { s with outs := [] }) ∧
    (s.status.runState ≠ .loaded → s.status.runState ≠ .halted →
      ∀ m ∈ [HostMove.run, .enqueue bytes, .clearInput, .clearOutput],
        hostMove m s = .error (.notAllowedIn s.status.runState)) ∧
    (s.status.runState = .waitInput → bytes ≠ [] →
      hostMove (.supplyLine bytes) s =
        .ok { s with inq := s.inq ++ bytes, status := { s.status with runState := .running } }) ∧
    (s.status.runState = .waitInput → hostMove (.supplyLine []) s = .error .emptyLine) ∧
    (s.status.runState ≠ .waitInput →
      hostMove (.supplyLine bytes) s = .error (.notAllowedIn s.status.runState)) ∧
    ((s.status.runState = .loaded ∨ s.status.runState = .halted ∨ s.status.runState = .faulted) →
      readOutput s = .ok s.outs) ∧
    ((s.status.runState = .running ∨ s.status.runState = .waitInput) →
      readOutput s = .error (.notAllowedIn s.status.runState))

/-- R22, R65: no transaction of the host changes a register, pc, the stack or memory. -/
def Obligations.HostTouchesOnlyTheStreams : Prop :=
  ∀ (m : HostMove) (s t : State), hostMove m s = .ok t →
    t.regs = s.regs ∧ t.pc = s.pc ∧ t.stack = s.stack ∧ (∀ k : Nat, t.mem.readByte k = s.mem.readByte k) ∧
    t.events = s.events ∧ ∃ r h, t.status = { s.status with runState := r, haltReason := h }

/-- R31, R32, R33 (D12): the codes of the status record as the host reads it, and when it may. -/
def Obligations.StatusReadsInItsCodes : Prop :=
  [RunState.loaded, .running, .waitInput, .halted, .faulted].map RunState.code = [0, 1, 2, 3, 4] ∧
  [none, some HaltReason.haltInstr, some .retEmpty, some .inputExhausted].map haltReasonCode = [0, 1, 2, 3] ∧
  [none, some FaultKind.unknownOpcode, some .invalidOperand, some .addressOutOfRange, some .stackUnderflow,
    some .divideByZero, some .invalidRegisterValue, some .stackOverflow].map faultKindCode
      = [0, 1, 2, 3, 4, 5, 6, 7] ∧
  ∀ s : State,
    (s.status.runState = .running → readStatus s = .error (.notAllowedIn .running)) ∧
    (s.status.runState ≠ .running → readStatus s = .ok
      { runState := s.status.runState.code, haltReason := haltReasonCode s.status.haltReason
        faultKind := faultKindCode s.status.faultKind, faultAddr := s.status.faultAddr
        faultOpcode := s.status.faultOpcode, faultOpcodeValid := BitVec.ofBool s.status.faultOpcodeValid })
end

