-- ==== Sys2Proof/Laws/Decode.lean ====
section
/-! SUPPORT. Argument Words and their classification, and the lengths of encodings and of what the decoder takes. -/

namespace Sys2Proof

theorem lit_toWord_toNat (v : Literal) : (Arg.lit v).toWord.toNat = v.toNat := by
  have := v.isLt
  simp only [Arg.toWord, BitVec.toNat_setWidth]
  omega

theorem reg_toWord_toNat (i : Reg) : (Arg.reg i).toWord.toNat = 32768 + i.val := by
  have := i.isLt
  simp only [Arg.toWord, BitVec.toNat_ofNat]
  omega

/-! ## The three readings of an Argument Word (R73, R92) -/

theorem ofWord_of_lt {w : Word} (h : w.toNat < 32768) : Arg.ofWord w = .lit (w.setWidth 15) := by
  unfold Arg.ofWord; exact if_pos h

theorem ofWord_of_reg {w : Word} (h : 32768 ≤ w.toNat) (h' : w.toNat < 32776) :
    Arg.ofWord w = .reg (Fin.ofNat 8 (w.toNat - 32768)) := by
  unfold Arg.ofWord
  exact (if_neg (Nat.not_lt.mpr h)).trans (if_pos h')

theorem ofWord_of_ge {w : Word} (h : 32776 ≤ w.toNat) : Arg.ofWord w = .invalid w := by
  unfold Arg.ofWord
  exact (if_neg (by omega)).trans (if_neg (Nat.not_lt.mpr h))

theorem ofNat_val_sub (i : Reg) (n : Nat) (h : n = 32768 + i.val) : Fin.ofNat 8 (n - 32768) = i := by
  have := i.isLt
  apply Fin.ext
  rw [Fin.val_ofNat]
  omega

/-- Reading a well-formed argument's Word gives the argument back. -/
theorem ofWord_toWord (a : Arg) (h : a.wellFormed = true) : Arg.ofWord a.toWord = a := by
  cases a with
  | lit v =>
    have hv := v.isLt
    have hw := lit_toWord_toNat v
    rw [ofWord_of_lt (by omega)]
    congr 1
    apply BitVec.eq_of_toNat_eq
    rw [BitVec.toNat_setWidth, hw]
    omega
  | reg i =>
    have hi := i.isLt
    have hw := reg_toWord_toNat i
    rw [ofWord_of_reg (by omega) (by omega), ofNat_val_sub i _ hw]
  | invalid w =>
    have h' : 32776 ≤ w.toNat := of_decide_eq_true h
    exact ofWord_of_ge h'

/-- No bit of an Argument Word is lost in its classification. -/
theorem toWord_ofWord (w : Word) : (Arg.ofWord w).toWord = w := by
  by_cases h1 : w.toNat < 32768
  · rw [ofWord_of_lt h1]
    apply BitVec.eq_of_toNat_eq
    rw [lit_toWord_toNat, BitVec.toNat_setWidth]
    omega
  · by_cases h2 : w.toNat < 32776
    · rw [ofWord_of_reg (by omega) h2]
      apply BitVec.eq_of_toNat_eq
      rw [reg_toWord_toNat, Fin.val_ofNat]
      omega
    · rw [ofWord_of_ge (by omega)]; rfl

theorem wellFormed_ofWord (w : Word) : (Arg.ofWord w).wellFormed = true := by
  by_cases h1 : w.toNat < 32768
  · rw [ofWord_of_lt h1]; rfl
  · by_cases h2 : w.toNat < 32776
    · rw [ofWord_of_reg (by omega) h2]; rfl
    · rw [ofWord_of_ge (by omega)]
      simp only [Arg.wellFormed, decide_eq_true_eq]
      omega

theorem ofWord_inj {v w : Word} (h : Arg.ofWord v = Arg.ofWord w) : v = w := by
  rw [← toWord_ofWord v, h, toWord_ofWord]

/-! ## The three operand formats: what the decoder takes from the Words after the opcode -/

theorem decodeF1_ok {mk : Arg → Instr} {op : Word} {ws : List Word} {i : Instr} (h : decodeF1 mk op ws = .ok i) :
    ∃ a r, ws = a :: r ∧ i = mk (.ofWord a) := by
  unfold decodeF1 at h
  split at h
  · rename_i a r; exact ⟨a, r, rfl, by simpa using h.symm⟩
  · simp at h

theorem decodeF2_ok {mk : Arg → Arg → Instr} {op : Word} {ws : List Word} {i : Instr}
    (h : decodeF2 mk op ws = .ok i) : ∃ a b r, ws = a :: b :: r ∧ i = mk (.ofWord a) (.ofWord b) := by
  unfold decodeF2 at h
  split at h
  · rename_i a b r; exact ⟨a, b, r, rfl, by simpa using h.symm⟩
  · simp at h

theorem decodeF3_ok {mk : Arg → Arg → Arg → Instr} {op : Word} {ws : List Word} {i : Instr}
    (h : decodeF3 mk op ws = .ok i) :
    ∃ a b c r, ws = a :: b :: c :: r ∧ i = mk (.ofWord a) (.ofWord b) (.ofWord c) := by
  unfold decodeF3 at h
  split at h
  · rename_i a b c r; exact ⟨a, b, c, r, rfl, by simpa using h.symm⟩
  · simp at h

/-- The longest instruction is four Words (R71). -/
theorem length_pos_le_four (i : Instr) : 1 ≤ i.length ∧ i.length ≤ 4 := by
  cases i <;> simp [Instr.length]

@[simp] theorem imageBytes_length (ws : List Word) : (imageBytes ws).length = 2 * ws.length := by
  induction ws with
  | nil => rfl
  | cons w ws ih => simp only [imageBytes, List.length_cons, ih]; omega

end Sys2Proof
end

