-- ==== Sys2Proof/Laws/Memory.lean ====
section
/-! SUPPORT. The laws of memory: a read after a write, one of a byte and one of a Word, and the canonical form, which
every operation keeps. The read laws hold of any list, canonical or not. -/

namespace Sys2Proof.Machine

/-! ## Bytes -/

theorem readByte_eraseByte (m : Memory) (k j : Nat) :
    (m.eraseByte k).readByte j = if j = k then Memory.unlisted else m.readByte j := by
  induction m with
  | nil => simp [Memory.eraseByte, Memory.readByte]
  | cons c m ih =>
    obtain ⟨a, b⟩ := c
    simp only [Memory.eraseByte, List.filter_cons] at ih ⊢
    by_cases hak : a = k
    · subst hak
      simp only [bne_self_eq_false, Bool.false_eq_true, if_false, ih, Memory.readByte]
      by_cases hj : j = a
      · simp [hj]
      · simp [hj, Ne.symm hj]
    · simp only [bne_iff_ne, ne_eq, hak, not_false_eq_true, if_true, Memory.readByte, ih]
      by_cases haj : a = j
      · subst haj; simp [hak]
      · simp [haj]

theorem readByte_insertByte_ne (m : Memory) (k j : Nat) (b : Byte) (h : j ≠ k) :
    (m.insertByte k b).readByte j = m.readByte j := by
  induction m with
  | nil => simp [Memory.insertByte, Memory.readByte, Ne.symm h]
  | cons c m ih =>
    obtain ⟨a, v⟩ := c
    simp only [Memory.insertByte]
    split
    · simp [Memory.readByte, Ne.symm h]
    · simp [Memory.readByte, ih]

theorem readByte_insertByte_self (m : Memory) (k : Nat) (b : Byte) (h : ∀ c ∈ m, c.1 ≠ k) :
    (m.insertByte k b).readByte k = b := by
  induction m with
  | nil => simp [Memory.insertByte, Memory.readByte]
  | cons c m ih =>
    obtain ⟨a, v⟩ := c
    have ha : a ≠ k := h (a, v) (by simp)
    simp only [Memory.insertByte]
    split
    · simp [Memory.readByte]
    · simp only [Memory.readByte, ha, if_false]
      exact ih fun c hc => h c (by simp [hc])

theorem readByte_writeByte (m : Memory) (k j : Nat) (b : Byte) :
    (m.writeByte k b).readByte j = if j = k then b else m.readByte j := by
  unfold Memory.writeByte
  split
  · rename_i hb; rw [readByte_eraseByte, hb]
  · by_cases hj : j = k
    · subst hj
      rw [readByte_insertByte_self _ _ _ (by simp [Memory.eraseByte]), if_pos rfl]
    · rw [readByte_insertByte_ne _ _ _ _ hj, readByte_eraseByte, if_neg hj, if_neg hj]

/-! ## Words -/

theorem wordOfBytes_toNat (low high : Byte) : (wordOfBytes low high).toNat = low.toNat + 256 * high.toNat := by
  have hl := low.isLt
  simp only [wordOfBytes, BitVec.toNat_append, Nat.shiftLeft_eq]
  rw [← Nat.shiftLeft_eq, ← Nat.shiftLeft_add_eq_or_of_lt hl, Nat.shiftLeft_eq]
  omega

theorem lowByte_toNat (w : Word) : (lowByte w).toNat = w.toNat % 256 := by
  simp [lowByte, BitVec.extractLsb'_toNat]

theorem highByte_toNat (w : Word) : (highByte w).toNat = w.toNat / 256 := by
  have := w.isLt
  simp only [highByte, BitVec.extractLsb'_toNat, Nat.shiftRight_eq_div_pow]
  omega

@[simp] theorem wordOfBytes_bytes (w : Word) : wordOfBytes (lowByte w) (highByte w) = w := by
  apply BitVec.eq_of_toNat_eq
  rw [wordOfBytes_toNat, lowByte_toNat, highByte_toNat]
  omega

/-- Every byte of storage outside the written Word reads as before. -/
theorem readByte_writeWord (m : Memory) (a k : Nat) (v : Word) :
    (m.writeWord a v).readByte k =
      if k = 2 * a + 1 then highByte v else if k = 2 * a then lowByte v else m.readByte k := by
  simp only [Memory.writeWord, readByte_writeByte]

theorem readWord_writeWord (m : Memory) (a b : Nat) (v : Word) :
    (m.writeWord a v).readWord b = if b = a then v else m.readWord b := by
  simp only [Memory.readWord, readByte_writeWord]
  by_cases h : b = a
  · subst h
    simp
  · have h1 : ¬ 2 * b = 2 * a + 1 := by omega
    have h2 : ¬ 2 * b = 2 * a := by omega
    have h4 : ¬ 2 * b + 1 = 2 * a := by omega
    simp [h, h1, h2, h4]

@[simp] theorem readByte_nil (k : Nat) : Memory.readByte [] k = 0 := rfl

@[simp] theorem readWord_nil (a : Nat) : Memory.readWord [] a = 0 := by
  simp [Memory.readWord, wordOfBytes]

theorem readWord_writeWords (m : Memory) (a b : Nat) (ws : List Word) :
    (m.writeWords a ws).readWord b = if a ≤ b then (ws[b - a]?).getD (m.readWord b) else m.readWord b := by
  induction ws generalizing m a with
  | nil => simp [Memory.writeWords]
  | cons w ws ih =>
    simp only [Memory.writeWords, ih, readWord_writeWord]
    by_cases hb : b = a
    · subst hb
      simp [show ¬ b + 1 ≤ b by omega]
    · by_cases hle : a + 1 ≤ b
      · rw [if_pos hle, if_pos (show a ≤ b by omega), if_neg hb, show b - a = b - (a + 1) + 1 by omega,
          List.getElem?_cons_succ]
      · rw [if_neg hle, if_neg hb, if_neg (show ¬ a ≤ b by omega)]

/-! ## The canonical form -/

theorem wfFrom_mono {m : Memory} {lo lo' : Nat} (h : m.wfFrom lo = true) (hle : lo' ≤ lo) : m.wfFrom lo' = true := by
  cases m with
  | nil => rfl
  | cons c m =>
    obtain ⟨a, b⟩ := c
    simp only [Memory.wfFrom, Bool.and_eq_true, decide_eq_true_eq] at h ⊢
    exact ⟨⟨⟨by omega, h.1.1.2⟩, h.1.2⟩, h.2⟩

theorem wfFrom_eraseByte {m : Memory} {lo : Nat} (k : Nat) (h : m.wfFrom lo = true) :
    (m.eraseByte k).wfFrom lo = true := by
  induction m generalizing lo with
  | nil => rfl
  | cons c m ih =>
    obtain ⟨a, b⟩ := c
    simp only [Memory.wfFrom, Bool.and_eq_true, decide_eq_true_eq] at h
    simp only [Memory.eraseByte, List.filter_cons] at ih ⊢
    by_cases hak : a = k
    · simp only [hak, bne_self_eq_false, Bool.false_eq_true, if_false]
      exact wfFrom_mono (ih (hak ▸ h.2)) (by omega)
    · simp only [bne_iff_ne, ne_eq, hak, not_false_eq_true, if_true, Memory.wfFrom, Bool.and_eq_true,
        decide_eq_true_eq]
      exact ⟨⟨⟨h.1.1.1, h.1.1.2⟩, bne_iff_ne.mp h.1.2⟩, ih h.2⟩

theorem wfFrom_insertByte {m : Memory} {lo k : Nat} {b : Byte} (h : m.wfFrom lo = true) (hlo : lo ≤ k)
    (hk : k < 65536) (hb : b ≠ Memory.unlisted) (hm : ∀ c ∈ m, c.1 ≠ k) : (m.insertByte k b).wfFrom lo = true := by
  induction m generalizing lo with
  | nil => simp [Memory.insertByte, Memory.wfFrom, hlo, hk, hb]
  | cons c m ih =>
    obtain ⟨a, v⟩ := c
    have ha : a ≠ k := hm (a, v) (by simp)
    simp only [Memory.wfFrom, Bool.and_eq_true, decide_eq_true_eq, bne_iff_ne, ne_eq] at h
    simp only [Memory.insertByte]
    split
    · simp only [Memory.wfFrom, Bool.and_eq_true, decide_eq_true_eq, bne_iff_ne, ne_eq]
      exact ⟨⟨⟨hlo, hk⟩, hb⟩, ⟨⟨by omega, h.1.1.2⟩, h.1.2⟩, h.2⟩
    · simp only [Memory.wfFrom, Bool.and_eq_true, decide_eq_true_eq, bne_iff_ne, ne_eq]
      exact ⟨⟨⟨h.1.1.1, h.1.1.2⟩, h.1.2⟩, ih h.2 (by omega) fun c hc => hm c (by simp [hc])⟩

theorem wf_writeByte {m : Memory} {k : Nat} (b : Byte) (h : m.wf = true) (hk : k < 65536) :
    (m.writeByte k b).wf = true := by
  unfold Memory.writeByte
  split
  · exact wfFrom_eraseByte k h
  · rename_i hb
    exact wfFrom_insertByte (wfFrom_eraseByte k h) (Nat.zero_le k) hk hb (by simp [Memory.eraseByte])

theorem wf_writeWord {m : Memory} {a : Nat} (v : Word) (h : m.wf = true) (ha : a < 32768) :
    (m.writeWord a v).wf = true :=
  wf_writeByte _ (wf_writeByte _ h (by omega)) (by omega)

theorem wf_writeWords {m : Memory} {a : Nat} (ws : List Word) (h : m.wf = true) (ha : a + ws.length ≤ 32768) :
    (m.writeWords a ws).wf = true := by
  induction ws generalizing m a with
  | nil => exact h
  | cons w ws ih =>
    simp only [List.length_cons] at ha
    exact ih (wf_writeWord w h (by omega)) (by omega)

@[simp] theorem wf_nil : Memory.wf [] = true := rfl

/-! ## The checked accesses -/

theorem memRead_eq_some_iff (m : Memory) (addr v : Word) :
    m.memRead addr = some v ↔ addr.toNat < 32768 ∧ m.readWord addr.toNat = v := by
  unfold Memory.memRead; split <;> simp [*]

theorem memWrite_eq_some_iff (m : Memory) (addr v : Word) (m' : Memory) :
    m.memWrite addr v = some m' ↔ addr.toNat < 32768 ∧ m.writeWord addr.toNat v = m' := by
  unfold Memory.memWrite; split <;> simp [*]

/-! ## An image -/

theorem readByte_ofImage (bs : List Byte) (k j : Nat) :
    (Memory.ofImage k bs).readByte j = if k ≤ j then bs.getD (j - k) 0 else 0 := by
  induction bs generalizing k with
  | nil => simp [Memory.ofImage]
  | cons b bs ih =>
    simp only [Memory.ofImage]
    by_cases hk : k = j
    · subst hk
      split
      · rename_i hb; simp [ih, show ¬ k + 1 ≤ k by omega, hb, Memory.unlisted]
      · simp [Memory.readByte]
    · have hget : k + 1 ≤ j → (b :: bs).getD (j - k) 0 = bs.getD (j - (k + 1)) 0 := by
        intro h
        rw [show j - k = j - (k + 1) + 1 by omega, List.getD_cons_succ]
      by_cases hle : k + 1 ≤ j
      · rw [if_pos (show k ≤ j by omega), hget hle]
        split <;> simp only [Memory.readByte, hk, if_false, ih, hle, if_true]
      · rw [if_neg (show ¬ k ≤ j by omega)]
        split <;> simp only [Memory.readByte, hk, if_false, ih, hle]

theorem wfFrom_ofImage (bs : List Byte) (k : Nat) (h : k + bs.length ≤ 65536) :
    (Memory.ofImage k bs).wfFrom k = true := by
  induction bs generalizing k with
  | nil => rfl
  | cons b bs ih =>
    simp only [List.length_cons] at h
    simp only [Memory.ofImage]
    have hrec := ih (k + 1) (by omega)
    split
    · exact wfFrom_mono hrec (by omega)
    · rename_i hb
      simp only [Memory.wfFrom, Bool.and_eq_true, decide_eq_true_eq, bne_iff_ne, ne_eq]
      exact ⟨⟨⟨Nat.le_refl k, by omega⟩, hb⟩, hrec⟩

/-! ## The fetch window -/

theorem window_getElem? (m : Memory) (n a k : Nat) :
    (m.window n a)[k]? = if k < n ∧ a + k < 32768 then some (m.readWord (a + k)) else none := by
  induction n generalizing a k with
  | zero => simp [Memory.window]
  | succ n ih =>
    simp only [Memory.window]
    split
    · cases k with
      | zero => simp [*]
      | succ k =>
        rw [List.getElem?_cons_succ, ih, show a + 1 + k = a + (k + 1) by omega]
        simp only [Nat.add_lt_add_iff_right]
    · simp [show ¬ a + k < 32768 by omega]

theorem window_length (m : Memory) (n a : Nat) : (m.window n a).length = min n (32768 - a) := by
  induction n generalizing a with
  | zero => simp [Memory.window]
  | succ n ih =>
    simp only [Memory.window]
    split
    · simp only [List.length_cons, ih]; omega
    · simp only [List.length_nil]; omega

end Sys2Proof.Machine
end

