-- ==== Sys2Proof/Laws/State.lean ====
section
/-! SUPPORT. One lemma per field of the state per named update, so that no later proof unfolds a record update. -/

namespace Sys2Proof.Machine

/-! ### setReg -/

@[simp] theorem setReg_cfg (i : Reg) (v : Word) (s : State) : (s.setReg i v).cfg = s.cfg := rfl
@[simp] theorem setReg_regs (i : Reg) (v : Word) (s : State) : (s.setReg i v).regs = s.regs.set i v := rfl
@[simp] theorem setReg_pc (i : Reg) (v : Word) (s : State) : (s.setReg i v).pc = s.pc := rfl
@[simp] theorem setReg_stack (i : Reg) (v : Word) (s : State) : (s.setReg i v).stack = s.stack := rfl
@[simp] theorem setReg_mem (i : Reg) (v : Word) (s : State) : (s.setReg i v).mem = s.mem := rfl
@[simp] theorem setReg_inq (i : Reg) (v : Word) (s : State) : (s.setReg i v).inq = s.inq := rfl
@[simp] theorem setReg_outs (i : Reg) (v : Word) (s : State) : (s.setReg i v).outs = s.outs := rfl
@[simp] theorem setReg_status (i : Reg) (v : Word) (s : State) : (s.setReg i v).status = s.status := rfl
@[simp] theorem setReg_events (i : Reg) (v : Word) (s : State) : (s.setReg i v).events = s.events := rfl

/-! ### jumpTo -/

@[simp] theorem jumpTo_cfg (t : Word) (s : State) : (s.jumpTo t).cfg = s.cfg := rfl
@[simp] theorem jumpTo_regs (t : Word) (s : State) : (s.jumpTo t).regs = s.regs := rfl
@[simp] theorem jumpTo_pc (t : Word) (s : State) : (s.jumpTo t).pc = t := rfl
@[simp] theorem jumpTo_stack (t : Word) (s : State) : (s.jumpTo t).stack = s.stack := rfl
@[simp] theorem jumpTo_mem (t : Word) (s : State) : (s.jumpTo t).mem = s.mem := rfl
@[simp] theorem jumpTo_inq (t : Word) (s : State) : (s.jumpTo t).inq = s.inq := rfl
@[simp] theorem jumpTo_outs (t : Word) (s : State) : (s.jumpTo t).outs = s.outs := rfl
@[simp] theorem jumpTo_status (t : Word) (s : State) : (s.jumpTo t).status = s.status := rfl
@[simp] theorem jumpTo_events (t : Word) (s : State) : (s.jumpTo t).events = s.events := rfl

/-! ### advance -/

@[simp] theorem advance_cfg (n : Nat) (s : State) : (s.advance n).cfg = s.cfg := rfl
@[simp] theorem advance_regs (n : Nat) (s : State) : (s.advance n).regs = s.regs := rfl
@[simp] theorem advance_pc (n : Nat) (s : State) : (s.advance n).pc = s.ipAfter n := rfl
@[simp] theorem advance_stack (n : Nat) (s : State) : (s.advance n).stack = s.stack := rfl
@[simp] theorem advance_mem (n : Nat) (s : State) : (s.advance n).mem = s.mem := rfl
@[simp] theorem advance_inq (n : Nat) (s : State) : (s.advance n).inq = s.inq := rfl
@[simp] theorem advance_outs (n : Nat) (s : State) : (s.advance n).outs = s.outs := rfl
@[simp] theorem advance_status (n : Nat) (s : State) : (s.advance n).status = s.status := rfl
@[simp] theorem advance_events (n : Nat) (s : State) : (s.advance n).events = s.events := rfl

/-! ### setStack -/

@[simp] theorem setStack_cfg (st : List Word) (s : State) : (s.setStack st).cfg = s.cfg := rfl
@[simp] theorem setStack_regs (st : List Word) (s : State) : (s.setStack st).regs = s.regs := rfl
@[simp] theorem setStack_pc (st : List Word) (s : State) : (s.setStack st).pc = s.pc := rfl
@[simp] theorem setStack_stack (st : List Word) (s : State) : (s.setStack st).stack = st := rfl
@[simp] theorem setStack_mem (st : List Word) (s : State) : (s.setStack st).mem = s.mem := rfl
@[simp] theorem setStack_inq (st : List Word) (s : State) : (s.setStack st).inq = s.inq := rfl
@[simp] theorem setStack_outs (st : List Word) (s : State) : (s.setStack st).outs = s.outs := rfl
@[simp] theorem setStack_status (st : List Word) (s : State) : (s.setStack st).status = s.status := rfl
@[simp] theorem setStack_events (st : List Word) (s : State) : (s.setStack st).events = s.events := rfl

/-! ### setMem -/

@[simp] theorem setMem_cfg (m : Memory) (s : State) : (s.setMem m).cfg = s.cfg := rfl
@[simp] theorem setMem_regs (m : Memory) (s : State) : (s.setMem m).regs = s.regs := rfl
@[simp] theorem setMem_pc (m : Memory) (s : State) : (s.setMem m).pc = s.pc := rfl
@[simp] theorem setMem_stack (m : Memory) (s : State) : (s.setMem m).stack = s.stack := rfl
@[simp] theorem setMem_mem (m : Memory) (s : State) : (s.setMem m).mem = m := rfl
@[simp] theorem setMem_inq (m : Memory) (s : State) : (s.setMem m).inq = s.inq := rfl
@[simp] theorem setMem_outs (m : Memory) (s : State) : (s.setMem m).outs = s.outs := rfl
@[simp] theorem setMem_status (m : Memory) (s : State) : (s.setMem m).status = s.status := rfl
@[simp] theorem setMem_events (m : Memory) (s : State) : (s.setMem m).events = s.events := rfl

/-! ### setInq -/

@[simp] theorem setInq_cfg (q : List Byte) (s : State) : (s.setInq q).cfg = s.cfg := rfl
@[simp] theorem setInq_regs (q : List Byte) (s : State) : (s.setInq q).regs = s.regs := rfl
@[simp] theorem setInq_pc (q : List Byte) (s : State) : (s.setInq q).pc = s.pc := rfl
@[simp] theorem setInq_stack (q : List Byte) (s : State) : (s.setInq q).stack = s.stack := rfl
@[simp] theorem setInq_mem (q : List Byte) (s : State) : (s.setInq q).mem = s.mem := rfl
@[simp] theorem setInq_inq (q : List Byte) (s : State) : (s.setInq q).inq = q := rfl
@[simp] theorem setInq_outs (q : List Byte) (s : State) : (s.setInq q).outs = s.outs := rfl
@[simp] theorem setInq_status (q : List Byte) (s : State) : (s.setInq q).status = s.status := rfl
@[simp] theorem setInq_events (q : List Byte) (s : State) : (s.setInq q).events = s.events := rfl

/-! ### emit -/

@[simp] theorem emit_cfg (v : Word) (s : State) : (s.emit v).cfg = s.cfg := rfl
@[simp] theorem emit_regs (v : Word) (s : State) : (s.emit v).regs = s.regs := rfl
@[simp] theorem emit_pc (v : Word) (s : State) : (s.emit v).pc = s.pc := rfl
@[simp] theorem emit_stack (v : Word) (s : State) : (s.emit v).stack = s.stack := rfl
@[simp] theorem emit_mem (v : Word) (s : State) : (s.emit v).mem = s.mem := rfl
@[simp] theorem emit_inq (v : Word) (s : State) : (s.emit v).inq = s.inq := rfl
@[simp] theorem emit_outs (v : Word) (s : State) : (s.emit v).outs = s.outs ++ [v] := rfl
@[simp] theorem emit_status (v : Word) (s : State) : (s.emit v).status = s.status := rfl
@[simp] theorem emit_events (v : Word) (s : State) : (s.emit v).events = s.events ++ [.echo v] := rfl

/-! ### faulted -/

@[simp] theorem faulted_cfg (kind : FaultKind) (s : State) : (s.faulted kind).cfg = s.cfg := rfl
@[simp] theorem faulted_regs (kind : FaultKind) (s : State) : (s.faulted kind).regs = s.regs := rfl
@[simp] theorem faulted_pc (kind : FaultKind) (s : State) : (s.faulted kind).pc = s.pc := rfl
@[simp] theorem faulted_stack (kind : FaultKind) (s : State) : (s.faulted kind).stack = s.stack := rfl
@[simp] theorem faulted_mem (kind : FaultKind) (s : State) : (s.faulted kind).mem = s.mem := rfl
@[simp] theorem faulted_inq (kind : FaultKind) (s : State) : (s.faulted kind).inq = s.inq := rfl
@[simp] theorem faulted_outs (kind : FaultKind) (s : State) : (s.faulted kind).outs = s.outs := rfl
@[simp] theorem faulted_events (kind : FaultKind) (s : State) : (s.faulted kind).events = s.events := rfl

/-! ### halted -/

@[simp] theorem halted_cfg (reason : HaltReason) (s : State) : (s.halted reason).cfg = s.cfg := rfl
@[simp] theorem halted_regs (reason : HaltReason) (s : State) : (s.halted reason).regs = s.regs := rfl
@[simp] theorem halted_pc (reason : HaltReason) (s : State) : (s.halted reason).pc = s.pc := rfl
@[simp] theorem halted_stack (reason : HaltReason) (s : State) : (s.halted reason).stack = s.stack := rfl
@[simp] theorem halted_mem (reason : HaltReason) (s : State) : (s.halted reason).mem = s.mem := rfl
@[simp] theorem halted_inq (reason : HaltReason) (s : State) : (s.halted reason).inq = s.inq := rfl
@[simp] theorem halted_outs (reason : HaltReason) (s : State) : (s.halted reason).outs = s.outs := rfl
@[simp] theorem halted_status (reason : HaltReason) (s : State) : (s.halted reason).status = { s.status with runState := .halted, haltReason := some reason } := rfl
@[simp] theorem halted_events (reason : HaltReason) (s : State) : (s.halted reason).events = s.events := rfl

/-! ### waiting -/

@[simp] theorem waiting_cfg (s : State) : s.waiting.cfg = s.cfg := rfl
@[simp] theorem waiting_regs (s : State) : s.waiting.regs = s.regs := rfl
@[simp] theorem waiting_pc (s : State) : s.waiting.pc = s.pc := rfl
@[simp] theorem waiting_stack (s : State) : s.waiting.stack = s.stack := rfl
@[simp] theorem waiting_mem (s : State) : s.waiting.mem = s.mem := rfl
@[simp] theorem waiting_inq (s : State) : s.waiting.inq = s.inq := rfl
@[simp] theorem waiting_outs (s : State) : s.waiting.outs = s.outs := rfl
@[simp] theorem waiting_status (s : State) : s.waiting.status = { s.status with runState := .waitInput } := rfl
@[simp] theorem waiting_events (s : State) : s.waiting.events = s.events := rfl

/-! ### startRun -/

@[simp] theorem startRun_cfg (s : State) : s.startRun.cfg = s.cfg := rfl
@[simp] theorem startRun_regs (s : State) : s.startRun.regs = s.regs := rfl
@[simp] theorem startRun_pc (s : State) : s.startRun.pc = s.pc := rfl
@[simp] theorem startRun_stack (s : State) : s.startRun.stack = s.stack := rfl
@[simp] theorem startRun_mem (s : State) : s.startRun.mem = s.mem := rfl
@[simp] theorem startRun_inq (s : State) : s.startRun.inq = s.inq := rfl
@[simp] theorem startRun_outs (s : State) : s.startRun.outs = s.outs := rfl
@[simp] theorem startRun_status (s : State) : s.startRun.status = { s.status with runState := .running, haltReason := none } := rfl
@[simp] theorem startRun_events (s : State) : s.startRun.events = s.events := rfl

/-! ### resume -/

@[simp] theorem resume_cfg (s : State) : s.resume.cfg = s.cfg := rfl
@[simp] theorem resume_regs (s : State) : s.resume.regs = s.regs := rfl
@[simp] theorem resume_pc (s : State) : s.resume.pc = s.pc := rfl
@[simp] theorem resume_stack (s : State) : s.resume.stack = s.stack := rfl
@[simp] theorem resume_mem (s : State) : s.resume.mem = s.mem := rfl
@[simp] theorem resume_inq (s : State) : s.resume.inq = s.inq := rfl
@[simp] theorem resume_outs (s : State) : s.resume.outs = s.outs := rfl
@[simp] theorem resume_status (s : State) : s.resume.status = { s.status with runState := .running } := rfl
@[simp] theorem resume_events (s : State) : s.resume.events = s.events := rfl

/-! ### The status record after a fault -/

@[simp] theorem faulted_status_runState (kind : FaultKind) (s : State) :
    (s.faulted kind).status.runState = .faulted := rfl
@[simp] theorem faulted_status_faultKind (kind : FaultKind) (s : State) :
    (s.faulted kind).status.faultKind = some kind := rfl
@[simp] theorem faulted_status_haltReason (kind : FaultKind) (s : State) :
    (s.faulted kind).status.haltReason = s.status.haltReason := rfl
@[simp] theorem faulted_status_faultAddr (kind : FaultKind) (s : State) :
    (s.faulted kind).status.faultAddr = s.pc := rfl
@[simp] theorem faulted_status_faultOpcodeValid (kind : FaultKind) (s : State) :
    (s.faulted kind).status.faultOpcodeValid = decide (s.pc.toNat < 32768) := rfl
@[simp] theorem faulted_status_faultOpcode (kind : FaultKind) (s : State) :
    (s.faulted kind).status.faultOpcode = if s.pc.toNat < 32768 then s.mem.readWord s.pc.toNat else 0 := rfl

/-! ### traced -/

@[simp] theorem traced_cfg (s : State) : s.traced.cfg = s.cfg := by
  unfold State.traced; split <;> rfl
@[simp] theorem traced_regs (s : State) : s.traced.regs = s.regs := by
  unfold State.traced; split <;> rfl
@[simp] theorem traced_pc (s : State) : s.traced.pc = s.pc := by
  unfold State.traced; split <;> rfl
@[simp] theorem traced_stack (s : State) : s.traced.stack = s.stack := by
  unfold State.traced; split <;> rfl
@[simp] theorem traced_mem (s : State) : s.traced.mem = s.mem := by
  unfold State.traced; split <;> rfl
@[simp] theorem traced_inq (s : State) : s.traced.inq = s.inq := by
  unfold State.traced; split <;> rfl
@[simp] theorem traced_outs (s : State) : s.traced.outs = s.outs := by
  unfold State.traced; split <;> rfl
@[simp] theorem traced_status (s : State) : s.traced.status = s.status := by
  unfold State.traced; split <;> rfl
theorem traced_events (s : State) :
    s.traced.events = if s.cfg.trace then s.events ++ [.trace s.pc (s.mem.readWord s.pc.toNat)] else s.events := by
  unfold State.traced; split <;> rfl

/-! ### Reads -/

@[simp] theorem getReg_setReg_self (i : Reg) (v : Word) (s : State) : (s.setReg i v).getReg i = v := by
  simp [State.getReg]

theorem getReg_setReg (i j : Reg) (v : Word) (s : State) :
    (s.setReg i v).getReg j = if i = j then v else s.getReg j := by
  simp [State.getReg, Vector.getElem_set, Fin.ext_iff]

theorem regs_set_getElem (r : Vector Word 8) (i j : Reg) (v : Word) :
    (r.set i v)[j] = if i = j then v else r[j] := by
  simp [Vector.getElem_set, Fin.ext_iff]

theorem faulted_eq (kind : FaultKind) (s : State) :
    s.faulted kind = { s with status := (s.faulted kind).status } := rfl

end Sys2Proof.Machine
end

