-- ==== Sys2Proof/Laws/Ops.lean ====
section
/-! SUPPORT. For each shared operation: what it does when its check passes, what it does when it fails, and one lemma
`<operation>_next` that says everything that can have happened if it answers a next state. -/

namespace Sys2Proof.Machine

@[simp] theorem raise_next_iff (kind : FaultKind) (s t : State) : raise kind s = .next t ↔ s.faulted kind = t := by
  simp [raise]

/-! ## The operand resolver -/

@[simp] theorem resolve_lit (v : Literal) (s : State) : resolve (.lit v) s = some (v.setWidth 16) := rfl
@[simp] theorem resolve_reg (i : Reg) (s : State) : resolve (.reg i) s = some (s.getReg i) := rfl
@[simp] theorem resolve_invalid (w : Word) (s : State) : resolve (.invalid w) s = none := rfl
@[simp] theorem target_lit (v : Literal) : target (.lit v) = none := rfl
@[simp] theorem target_reg (i : Reg) : target (.reg i) = some i := rfl
@[simp] theorem target_invalid (w : Word) : target (.invalid w) = none := rfl

/-- A value depends on the state through the registers alone. -/
theorem resolve_congr (a : Arg) {s s' : State} (h : s.regs = s'.regs) : resolve a s = resolve a s' := by
  cases a <;> simp [resolve, State.getReg, h]

theorem withValue_some {a : Arg} {s : State} {v : Word} (h : resolve a s = some v) (k : Word → Result) :
    withValue a s k = k v := by simp [withValue, h]

theorem withValue_none {a : Arg} {s : State} (h : resolve a s = none) (k : Word → Result) :
    withValue a s k = raise .invalidOperand s := by simp [withValue, h]

theorem withValue_next {a : Arg} {s t : State} {k : Word → Result} (h : withValue a s k = .next t) :
    (∃ v, resolve a s = some v ∧ k v = .next t) ∨ (resolve a s = none ∧ t = s.faulted .invalidOperand) := by
  unfold withValue at h
  split at h
  · exact .inr ⟨‹_›, ((raise_next_iff _ _ _).mp h).symm⟩
  · exact .inl ⟨_, ‹_›, h⟩

theorem withTarget_some {a : Arg} {i : Reg} (h : target a = some i) (s : State) (k : Reg → Result) :
    withTarget a s k = k i := by simp [withTarget, h]

theorem withTarget_none {a : Arg} (h : target a = none) (s : State) (k : Reg → Result) :
    withTarget a s k = raise .invalidOperand s := by simp [withTarget, h]

theorem withTarget_next {a : Arg} {s t : State} {k : Reg → Result} (h : withTarget a s k = .next t) :
    (∃ i, target a = some i ∧ k i = .next t) ∨ (target a = none ∧ t = s.faulted .invalidOperand) := by
  unfold withTarget at h
  split at h
  · exact .inr ⟨‹_›, ((raise_next_iff _ _ _).mp h).symm⟩
  · exact .inl ⟨_, ‹_›, h⟩

/-! ## The register write -/

theorem mayWrite_of_lt {s : State} {v : Word} (h : v.toNat < 32768) : s.mayWrite v = true := by
  simp [State.mayWrite, h]

theorem mayWrite_iff (s : State) (v : Word) :
    s.mayWrite v = true ↔ v.toNat < 32768 ∨ s.cfg.regHighWrite = .storeRaw := by
  simp [State.mayWrite]

theorem withWriteGuard_next {v : Word} {s t : State} {k : Result} (h : withWriteGuard v s k = .next t) :
    (s.mayWrite v = true ∧ k = .next t) ∨ (s.mayWrite v = false ∧ t = s.faulted .invalidRegisterValue) := by
  unfold withWriteGuard at h
  split at h
  · exact .inl ⟨‹_›, h⟩
  · exact .inr ⟨Bool.eq_false_iff.mpr ‹¬ _›, ((raise_next_iff _ _ _).mp h).symm⟩

theorem retireReg_of_mayWrite {s : State} {v : Word} (h : s.mayWrite v = true) (i : Reg) (n : Nat) :
    retireReg i v n s = .next ((s.setReg i v).advance n) := by simp [retireReg, withWriteGuard, h]

theorem retireReg_next {i : Reg} {v : Word} {n : Nat} {s t : State} (h : retireReg i v n s = .next t) :
    (s.mayWrite v = true ∧ t = (s.setReg i v).advance n) ∨
      (s.mayWrite v = false ∧ t = s.faulted .invalidRegisterValue) := by
  rcases withWriteGuard_next h with ⟨h1, h2⟩ | h2
  · exact .inl ⟨h1, by simpa using h2.symm⟩
  · exact .inr h2

/-! ## The stack -/

theorem stackFull_iff (s : State) : s.stackFull = true ↔ s.cfg.stackCapacity = some s.stack.length := by
  simp [State.stackFull]

theorem withPushed_next {v : Word} {s t : State} {k : State → Result} (h : withPushed v s k = .next t) :
    (s.stackFull = false ∧ k (s.setStack (s.stack ++ [v])) = .next t) ∨
      (s.stackFull = true ∧ t = s.faulted .stackOverflow) := by
  unfold withPushed at h
  split at h
  · exact .inr ⟨‹_›, ((raise_next_iff _ _ _).mp h).symm⟩
  · exact .inl ⟨Bool.eq_false_iff.mpr ‹¬ _›, h⟩

theorem withPopped_concat {s : State} {st : List Word} {v : Word} (h : s.stack = st ++ [v]) (r : Result)
    (k : Word → State → Result) : withPopped s r k = k v (s.setStack st) := by
  simp [withPopped, h]

theorem withPopped_nil {s : State} (h : s.stack = []) (r : Result) (k : Word → State → Result) :
    withPopped s r k = r := by
  simp [withPopped, h]

/-- A sequence is empty or has a last entry. -/
theorem stack_nil_or_concat (l : List Word) : l = [] ∨ ∃ st v, l = st ++ [v] := by
  rcases List.eq_nil_or_concat l with h | ⟨st, v, h⟩
  · exact .inl h
  · exact .inr ⟨st, v, by simpa using h⟩

theorem withPopped_next {s t : State} {r : Result} {k : Word → State → Result} (h : withPopped s r k = .next t) :
    (s.stack = [] ∧ r = .next t) ∨ (∃ st v, s.stack = st ++ [v] ∧ k v (s.setStack st) = .next t) := by
  rcases stack_nil_or_concat s.stack with hs | ⟨st, v, hs⟩
  · rw [withPopped_nil hs] at h; exact .inl ⟨hs, h⟩
  · rw [withPopped_concat hs] at h; exact .inr ⟨st, v, hs, h⟩

/-! ## Memory -/

theorem withMemRead_next {addr : Word} {s t : State} {k : Word → Result} (h : withMemRead addr s k = .next t) :
    (addr.toNat < 32768 ∧ k (s.mem.readWord addr.toNat) = .next t) ∨
      (32768 ≤ addr.toNat ∧ t = s.faulted .addressOutOfRange) := by
  unfold withMemRead Memory.memRead at h
  by_cases ha : addr.toNat < 32768
  · rw [if_pos ha] at h; exact .inl ⟨ha, h⟩
  · rw [if_neg ha] at h; exact .inr ⟨by omega, ((raise_next_iff _ _ _).mp h).symm⟩

theorem withMemWrite_next {addr v : Word} {s t : State} {k : State → Result} (h : withMemWrite addr v s k = .next t) :
    (addr.toNat < 32768 ∧ k (s.setMem (s.mem.writeWord addr.toNat v)) = .next t) ∨
      (32768 ≤ addr.toNat ∧ t = s.faulted .addressOutOfRange) := by
  unfold withMemWrite Memory.memWrite at h
  by_cases ha : addr.toNat < 32768
  · rw [if_pos ha] at h; exact .inl ⟨ha, h⟩
  · rw [if_neg ha] at h; exact .inr ⟨by omega, ((raise_next_iff _ _ _).mp h).symm⟩

/-! ## The instruction shapes -/

theorem binaryToReg_next {f : Word → Word → Word} {a b c : Arg} {s t : State}
    (h : binaryToReg f a b c s = .next t) :
    (∃ i u w, target a = some i ∧ resolve b s = some u ∧ resolve c s = some w ∧ s.mayWrite (f u w) = true ∧
        t = (s.setReg i (f u w)).advance 4) ∨ ∃ kind, t = s.faulted kind := by
  rcases withTarget_next h with ⟨i, hi, h⟩ | ⟨-, h⟩
  · rcases withValue_next h with ⟨u, hu, h⟩ | ⟨-, h⟩
    · rcases withValue_next h with ⟨w, hw, h⟩ | ⟨-, h⟩
      · rcases retireReg_next h with ⟨hg, h⟩ | ⟨-, h⟩
        · exact .inl ⟨i, u, w, hi, hu, hw, hg, h⟩
        · exact .inr ⟨_, h⟩
      · exact .inr ⟨_, h⟩
    · exact .inr ⟨_, h⟩
  · exact .inr ⟨_, h⟩

theorem unaryToReg_next {f : Word → Word} {a b : Arg} {s t : State} (h : unaryToReg f a b s = .next t) :
    (∃ i u, target a = some i ∧ resolve b s = some u ∧ s.mayWrite (f u) = true ∧
        t = (s.setReg i (f u)).advance 3) ∨ ∃ kind, t = s.faulted kind := by
  rcases withTarget_next h with ⟨i, hi, h⟩ | ⟨-, h⟩
  · rcases withValue_next h with ⟨u, hu, h⟩ | ⟨-, h⟩
    · rcases retireReg_next h with ⟨hg, h⟩ | ⟨-, h⟩
      · exact .inl ⟨i, u, hi, hu, hg, h⟩
      · exact .inr ⟨_, h⟩
    · exact .inr ⟨_, h⟩
  · exact .inr ⟨_, h⟩

theorem branch_next {test : Word → Bool} {a b : Arg} {s t : State} (h : branch test a b s = .next t) :
    (∃ u dst, resolve a s = some u ∧ resolve b s = some dst ∧
        t = if test u then s.jumpTo dst else s.advance 3) ∨ ∃ kind, t = s.faulted kind := by
  rcases withValue_next h with ⟨u, hu, h⟩ | ⟨-, h⟩
  · rcases withValue_next h with ⟨w, hw, h⟩ | ⟨-, h⟩
    · exact .inl ⟨u, w, hu, hw, by simpa using h.symm⟩
    · exact .inr ⟨_, h⟩
  · exact .inr ⟨_, h⟩

/-! ## The ranges of results (R104 to R108) -/

theorem add15_lt (u w : Word) : (add15 u w).toNat < 32768 := by
  simp only [add15, BitVec.toNat_ofNat]; omega

theorem mul15_lt (u w : Word) : (mul15 u w).toNat < 32768 := by
  simp only [mul15, BitVec.toNat_ofNat]; omega

theorem not15_lt (u : Word) : (not15 u).toNat < 32768 := by
  simp only [not15, BitVec.toNat_and]
  exact Nat.lt_of_le_of_lt Nat.and_le_right (by decide)

theorem eqResult_lt (u w : Word) : (eqResult u w).toNat < 32768 := by
  unfold eqResult; split <;> decide

theorem gtResult_lt (u w : Word) : (gtResult u w).toNat < 32768 := by
  unfold gtResult; split <;> decide

theorem zext16_toNat (b : Byte) : (zext16 b).toNat = b.toNat := by
  have := b.isLt
  simp only [zext16, BitVec.toNat_setWidth]; omega

end Sys2Proof.Machine
end

