-- ==== Sys2Proof/Laws/Exec.lean ====
section
/-! SUPPORT. One inversion lemma per meaning: if it answers a next state, either its effect happened or the state is a
fault's entry. Claims over all instructions are a case split over these. -/

namespace Sys2Proof.Machine

theorem execSet_next {a b : Arg} {s t : State} (h : execSet a b s = .next t) :
    (∃ i v, target a = some i ∧ resolve b s = some v ∧ s.mayWrite v = true ∧ t = (s.setReg i v).advance 3) ∨
      ∃ kind, t = s.faulted kind := unaryToReg_next h

theorem execNot_next {a b : Arg} {s t : State} (h : execNot a b s = .next t) :
    (∃ i v, target a = some i ∧ resolve b s = some v ∧ s.mayWrite (not15 v) = true ∧
        t = (s.setReg i (not15 v)).advance 3) ∨ ∃ kind, t = s.faulted kind := unaryToReg_next h

theorem execPush_next {a : Arg} {s t : State} (h : execPush a s = .next t) :
    (∃ v, resolve a s = some v ∧ s.stackFull = false ∧ t = (s.setStack (s.stack ++ [v])).advance 2) ∨
      ∃ kind, t = s.faulted kind := by
  rcases withValue_next h with ⟨v, hv, h⟩ | ⟨-, h⟩
  · rcases withPushed_next h with ⟨hf, h⟩ | ⟨-, h⟩
    · exact .inl ⟨v, hv, hf, by simpa using h.symm⟩
    · exact .inr ⟨_, h⟩
  · exact .inr ⟨_, h⟩

theorem execPop_next {a : Arg} {s t : State} (h : execPop a s = .next t) :
    (∃ i st v, target a = some i ∧ s.stack = st ++ [v] ∧ s.mayWrite v = true ∧
        t = ((s.setStack st).setReg i v).advance 2) ∨ ∃ kind, t = s.faulted kind := by
  rcases withTarget_next h with ⟨i, hi, h⟩ | ⟨-, h⟩
  · rcases withPopped_next h with ⟨-, h⟩ | ⟨st, v, hs, h⟩
    · exact .inr ⟨_, ((raise_next_iff _ _ _).mp h).symm⟩
    · rcases withWriteGuard_next h with ⟨hg, h⟩ | ⟨-, h⟩
      · exact .inl ⟨i, st, v, hi, hs, hg, by simpa using h.symm⟩
      · exact .inr ⟨_, h⟩
  · exact .inr ⟨_, h⟩

theorem execJmp_next {a : Arg} {s t : State} (h : execJmp a s = .next t) :
    (∃ v, resolve a s = some v ∧ t = s.jumpTo v) ∨ ∃ kind, t = s.faulted kind := by
  rcases withValue_next h with ⟨v, hv, h⟩ | ⟨-, h⟩
  · exact .inl ⟨v, hv, by simpa using h.symm⟩
  · exact .inr ⟨_, h⟩

theorem execMod_next {a b c : Arg} {s t : State} (h : execMod a b c s = .next t) :
    (∃ i u w, target a = some i ∧ resolve b s = some u ∧ resolve c s = some w ∧ w ≠ 0 ∧
        s.mayWrite (mod15 u w) = true ∧ t = (s.setReg i (mod15 u w)).advance 4) ∨ ∃ kind, t = s.faulted kind := by
  rcases withTarget_next h with ⟨i, hi, h⟩ | ⟨-, h⟩
  · rcases withValue_next h with ⟨u, hu, h⟩ | ⟨-, h⟩
    · rcases withValue_next h with ⟨w, hw, h⟩ | ⟨-, h⟩
      · split at h
        · exact .inr ⟨_, ((raise_next_iff _ _ _).mp h).symm⟩
        · rcases retireReg_next h with ⟨hg, h⟩ | ⟨-, h⟩
          · exact .inl ⟨i, u, w, hi, hu, hw, ‹_›, hg, h⟩
          · exact .inr ⟨_, h⟩
      · exact .inr ⟨_, h⟩
    · exact .inr ⟨_, h⟩
  · exact .inr ⟨_, h⟩

theorem execRmem_next {a b : Arg} {s t : State} (h : execRmem a b s = .next t) :
    (∃ i addr, target a = some i ∧ resolve b s = some addr ∧ addr.toNat < 32768 ∧
        s.mayWrite (s.mem.readWord addr.toNat) = true ∧
        t = (s.setReg i (s.mem.readWord addr.toNat)).advance 3) ∨ ∃ kind, t = s.faulted kind := by
  rcases withTarget_next h with ⟨i, hi, h⟩ | ⟨-, h⟩
  · rcases withValue_next h with ⟨addr, ha, h⟩ | ⟨-, h⟩
    · rcases withMemRead_next h with ⟨hlt, h⟩ | ⟨-, h⟩
      · rcases retireReg_next h with ⟨hg, h⟩ | ⟨-, h⟩
        · exact .inl ⟨i, addr, hi, ha, hlt, hg, h⟩
        · exact .inr ⟨_, h⟩
      · exact .inr ⟨_, h⟩
    · exact .inr ⟨_, h⟩
  · exact .inr ⟨_, h⟩

theorem execWmem_next {a b : Arg} {s t : State} (h : execWmem a b s = .next t) :
    (∃ addr v, resolve a s = some addr ∧ resolve b s = some v ∧ addr.toNat < 32768 ∧
        t = (s.setMem (s.mem.writeWord addr.toNat v)).advance 3) ∨ ∃ kind, t = s.faulted kind := by
  rcases withValue_next h with ⟨addr, ha, h⟩ | ⟨-, h⟩
  · rcases withValue_next h with ⟨v, hv, h⟩ | ⟨-, h⟩
    · rcases withMemWrite_next h with ⟨hlt, h⟩ | ⟨-, h⟩
      · exact .inl ⟨addr, v, ha, hv, hlt, by simpa using h.symm⟩
      · exact .inr ⟨_, h⟩
    · exact .inr ⟨_, h⟩
  · exact .inr ⟨_, h⟩

theorem execCall_next {a : Arg} {s t : State} (h : execCall a s = .next t) :
    (∃ v, resolve a s = some v ∧ s.stackFull = false ∧ t = (s.setStack (s.stack ++ [s.ipAfter 2])).jumpTo v) ∨
      ∃ kind, t = s.faulted kind := by
  rcases withValue_next h with ⟨v, hv, h⟩ | ⟨-, h⟩
  · rcases withPushed_next h with ⟨hf, h⟩ | ⟨-, h⟩
    · exact .inl ⟨v, hv, hf, by simpa using h.symm⟩
    · exact .inr ⟨_, h⟩
  · exact .inr ⟨_, h⟩

theorem execRet_next {s t : State} (h : execRet s = .next t) :
    (∃ st v, s.stack = st ++ [v] ∧ t = (s.setStack st).jumpTo v) ∨ (s.stack = [] ∧ t = s.halted .retEmpty) := by
  rcases withPopped_next h with ⟨hs, h⟩ | ⟨st, v, hs, h⟩
  · exact .inr ⟨hs, by simpa using h.symm⟩
  · exact .inl ⟨st, v, hs, by simpa using h.symm⟩

theorem execOut_next {a : Arg} {s t : State} (h : execOut a s = .next t) :
    (∃ v, resolve a s = some v ∧ t = (s.emit v).advance 2) ∨ ∃ kind, t = s.faulted kind := by
  rcases withValue_next h with ⟨v, hv, h⟩ | ⟨-, h⟩
  · exact .inl ⟨v, hv, by simpa using h.symm⟩
  · exact .inr ⟨_, h⟩

theorem execIn_next {a : Arg} {s t : State} (h : execIn a s = .next t) :
    (∃ i b q, target a = some i ∧ s.inq = b :: q ∧ t = ((s.setInq q).setReg i (zext16 b)).advance 2) ∨
      (∃ i, target a = some i ∧ s.inq = [] ∧
        t = if s.cfg.interactive then s.waiting else s.halted .inputExhausted) ∨ ∃ kind, t = s.faulted kind := by
  rcases withTarget_next h with ⟨i, hi, h⟩ | ⟨-, h⟩
  · split at h
    · exact .inr (.inl ⟨i, hi, ‹_›, by simpa using h.symm⟩)
    · exact .inl ⟨i, _, _, hi, ‹_›, by simpa using h.symm⟩
  · exact .inr (.inr ⟨_, h⟩)

end Sys2Proof.Machine
end

