-- ==== Sys2Proof/Laws/Fault.lean ====
section
/-! SUPPORT. Why an instruction faults: each shared operation that can fail gives the cause of its fault, and
`exec_faulted` gathers them. -/

namespace Sys2Proof.Machine

/-- The write guard fails exactly on a Word above 32767 under REG_HIGH_WRITE = fault (R23). -/
theorem mayWrite_false {s : State} {v : Word} (h : s.mayWrite v = false) :
    s.cfg.regHighWrite = .fault ∧ 32768 ≤ v.toNat := by
  simp only [State.mayWrite, Bool.or_eq_false_iff, decide_eq_false_iff_not, Nat.not_lt] at h
  refine ⟨?_, h.1⟩
  have h2 := h.2
  cases hc : s.cfg.regHighWrite
  · rfl
  · rw [hc] at h2; exact absurd h2 (by decide)

/-- What `k` answers from the operands is, if it is a fault's entry, one with its cause. -/
abbrev Caused (i : Instr) (s t : State) : Prop := ∃ kind, t = s.faulted kind ∧ FaultCause i s kind

/-- An operand that `target` or `resolve` has no answer for is the cause of InvalidOperand (R213). -/
theorem operandsResolve_false {i : Instr} {s : State} {o : Operand} (ho : o ∈ operands i)
    (h : o.resolves s = false) : operandsResolve i s = false :=
  List.all_eq_false.mpr ⟨o, ho, by simp [h]⟩

theorem withTarget_caused (i : Instr) {a : Arg} {s t : State} {k : Reg → Result} (ha : Operand.dest a ∈ operands i)
    (h : withTarget a s k = .next t) : Caused i s t ∨ ∃ r, target a = some r ∧ k r = .next t := by
  rcases withTarget_next h with h | ⟨hn, h⟩
  · exact .inr h
  · exact .inl ⟨_, h, operandsResolve_false ha (by simp [Operand.resolves, hn])⟩

theorem withValue_caused (i : Instr) {a : Arg} {s t : State} {k : Word → Result} (ha : Operand.value a ∈ operands i)
    (h : withValue a s k = .next t) : Caused i s t ∨ ∃ v, resolve a s = some v ∧ k v = .next t := by
  rcases withValue_next h with h | ⟨hn, h⟩
  · exact .inr h
  · exact .inl ⟨_, h, operandsResolve_false ha (by simp [Operand.resolves, hn])⟩

theorem withWriteGuard_caused (i : Instr) {v : Word} {s t : State} {k : Result}
    (hw : 32768 ≤ v.toNat → WritesValue v s i) (h : withWriteGuard v s k = .next t) :
    Caused i s t ∨ k = .next t := by
  rcases withWriteGuard_next h with ⟨-, h⟩ | ⟨hg, h⟩
  · exact .inr h
  · exact .inl ⟨_, h, (mayWrite_false hg).1, v, (mayWrite_false hg).2, hw (mayWrite_false hg).2⟩

/-- The destination of a register write is not a fault's entry, so only its guard can be. -/
theorem retireReg_caused {i : Instr} {r : Reg} {v : Word} {n : Nat} {s t : State}
    (hs : s.status.runState ≠ .faulted) (ht : t.status.runState = .faulted)
    (hw : 32768 ≤ v.toNat → WritesValue v s i) (h : retireReg r v n s = .next t) : Caused i s t := by
  rcases withWriteGuard_caused i hw h with h | h
  · exact h
  · cases h; exact absurd ht hs

/-- A next state that is FAULTED, from one that is not, is a fault's entry, for a cause of its kind (R99). -/
theorem exec_faulted {i : Instr} {s t : State} (hs : s.status.runState ≠ .faulted)
    (ht : t.status.runState = .faulted) (h : exec i s = .next t) : Caused i s t := by
  obtain ⟨j, hi⟩ : ∃ j, i = j := ⟨i, rfl⟩
  rw [hi] at h
  cases j with
  | halt => cases h; cases ht
  | noop => cases h; exact absurd ht hs
  | ret =>
    rcases execRet_next h with ⟨st, v, -, rfl⟩ | ⟨-, rfl⟩
    · exact absurd ht hs
    · cases ht
  | jmp a =>
    rcases withValue_caused i (by simp [hi, operands]) h with h | ⟨v, -, h⟩
    · exact h
    · cases h; exact absurd ht hs
  | out a =>
    rcases withValue_caused i (by simp [hi, operands]) h with h | ⟨v, -, h⟩
    · exact h
    · cases h; exact absurd ht hs
  | push a | call a =>
    rcases withValue_caused i (by simp [hi, operands]) h with h | ⟨v, -, h⟩
    · exact h
    · rcases withPushed_next h with ⟨-, h⟩ | ⟨hf, h⟩
      · cases h; exact absurd ht hs
      · exact ⟨_, h, ⟨a, by simp [hi]⟩, (stackFull_iff s).mp hf⟩
  | pop a =>
    rcases withTarget_caused i (by simp [hi, operands]) h with h | ⟨r, -, h⟩
    · exact h
    · rcases withPopped_next h with ⟨hn, h⟩ | ⟨st, v, hst, h⟩
      · exact ⟨_, ((raise_next_iff _ _ _).mp h).symm, ⟨a, hi⟩, hn⟩
      · rcases withWriteGuard_caused i (fun _ => hi ▸ ⟨st, hst⟩) h with h | h
        · exact h
        · cases h; exact absurd ht hs
  | input a =>
    rcases withTarget_caused i (by simp [hi, operands]) h with h | ⟨r, -, h⟩
    · exact h
    · split at h
      · cases h
        split at ht <;> cases ht
      · cases h; exact absurd ht hs
  | jt a b | jf a b =>
    rcases withValue_caused i (by simp [hi, operands]) h with h | ⟨u, -, h⟩
    · exact h
    · rcases withValue_caused i (by simp [hi, operands]) h with h | ⟨v, -, h⟩
      · exact h
      · cases h
        split at ht <;> exact absurd ht hs
  | wmem a b =>
    rcases withValue_caused i (by simp [hi, operands]) h with h | ⟨addr, ha, h⟩
    · exact h
    · rcases withValue_caused i (by simp [hi, operands]) h with h | ⟨v, -, h⟩
      · exact h
      · rcases withMemWrite_next h with ⟨-, h⟩ | ⟨hge, h⟩
        · cases h; exact absurd ht hs
        · exact ⟨_, h, a, b, addr, hge, .inr ⟨hi, ha⟩⟩
  | rmem a b =>
    rcases withTarget_caused i (by simp [hi, operands]) h with h | ⟨r, -, h⟩
    · exact h
    · rcases withValue_caused i (by simp [hi, operands]) h with h | ⟨addr, ha, h⟩
      · exact h
      · rcases withMemRead_next h with ⟨hlt, h⟩ | ⟨hge, h⟩
        · exact retireReg_caused hs ht (fun _ => hi ▸ ⟨addr, ha, hlt, rfl⟩) h
        · exact ⟨_, h, a, b, addr, hge, .inl ⟨hi, ha⟩⟩
  | set a b =>
    rcases withTarget_caused i (by simp [hi, operands]) h with h | ⟨r, -, h⟩
    · exact h
    · rcases withValue_caused i (by simp [hi, operands]) h with h | ⟨u, hu, h⟩
      · exact h
      · exact retireReg_caused hs ht (fun _ => hi ▸ hu) h
  | not a b =>
    rcases withTarget_caused i (by simp [hi, operands]) h with h | ⟨r, -, h⟩
    · exact h
    · rcases withValue_caused i (by simp [hi, operands]) h with h | ⟨u, -, h⟩
      · exact h
      · exact retireReg_caused hs ht (fun hge => absurd (not15_lt u) (by omega)) h
  | mod a b c =>
    rcases withTarget_caused i (by simp [hi, operands]) h with h | ⟨r, -, h⟩
    · exact h
    · rcases withValue_caused i (by simp [hi, operands]) h with h | ⟨u, hu, h⟩
      · exact h
      · rcases withValue_caused i (by simp [hi, operands]) h with h | ⟨w, hw, h⟩
        · exact h
        · split at h
          · rename_i h0
            exact ⟨_, ((raise_next_iff _ _ _).mp h).symm, a, b, c, hi, h0 ▸ hw⟩
          · exact retireReg_caused hs ht (fun _ => hi ▸ ⟨u, w, hu, hw, rfl⟩) h
  | eq a b c | gt a b c | add a b c | mul a b c | and a b c | or a b c =>
    rcases withTarget_caused i (by simp [hi, operands]) h with h | ⟨r, -, h⟩
    · exact h
    · rcases withValue_caused i (by simp [hi, operands]) h with h | ⟨u, hu, h⟩
      · exact h
      · rcases withValue_caused i (by simp [hi, operands]) h with h | ⟨w, hw, h⟩
        · exact h
        · refine retireReg_caused hs ht (fun hge => ?_) h
          first
            | exact hi ▸ ⟨u, w, hu, hw, rfl⟩
            | exact absurd (eqResult_lt u w) (Nat.not_lt.mpr hge)
            | exact absurd (gtResult_lt u w) (Nat.not_lt.mpr hge)
            | exact absurd (add15_lt u w) (Nat.not_lt.mpr hge)
            | exact absurd (mul15_lt u w) (Nat.not_lt.mpr hge)

end Sys2Proof.Machine
end

