-- ==== Sys2Proof/Laws/PerInstr.lean ====
section
/-! SUPPORT. What is proved once for each constructor of `Instr`. Family `EncodedLength`: an encoding is as long as
the instruction, and that is one Word and one more for each operand position (spec 30_encoding.md R70, R71, R76). -/

namespace Sys2Proof.Laws.EncodedLength

open Sys2Proof

/-- The encoding of `i` has the length of `i`, one more than the number of its operand positions. -/
def Statement (i : Instr) : Prop :=
  (encode i).length = i.length ∧ i.length = 1 + (Machine.operands i).length

theorem halt : Statement .halt := ⟨rfl, rfl⟩
theorem set (a b : Arg) : Statement (.set a b) := ⟨rfl, rfl⟩
theorem push (a : Arg) : Statement (.push a) := ⟨rfl, rfl⟩
theorem pop (a : Arg) : Statement (.pop a) := ⟨rfl, rfl⟩
theorem eq (a b c : Arg) : Statement (.eq a b c) := ⟨rfl, rfl⟩
theorem gt (a b c : Arg) : Statement (.gt a b c) := ⟨rfl, rfl⟩
theorem jmp (a : Arg) : Statement (.jmp a) := ⟨rfl, rfl⟩
theorem jt (a b : Arg) : Statement (.jt a b) := ⟨rfl, rfl⟩
theorem jf (a b : Arg) : Statement (.jf a b) := ⟨rfl, rfl⟩
theorem add (a b c : Arg) : Statement (.add a b c) := ⟨rfl, rfl⟩
theorem mul (a b c : Arg) : Statement (.mul a b c) := ⟨rfl, rfl⟩
theorem mod (a b c : Arg) : Statement (.mod a b c) := ⟨rfl, rfl⟩
theorem and (a b c : Arg) : Statement (.and a b c) := ⟨rfl, rfl⟩
theorem or (a b c : Arg) : Statement (.or a b c) := ⟨rfl, rfl⟩
theorem not (a b : Arg) : Statement (.not a b) := ⟨rfl, rfl⟩
theorem rmem (a b : Arg) : Statement (.rmem a b) := ⟨rfl, rfl⟩
theorem wmem (a b : Arg) : Statement (.wmem a b) := ⟨rfl, rfl⟩
theorem call (a : Arg) : Statement (.call a) := ⟨rfl, rfl⟩
theorem ret : Statement .ret := ⟨rfl, rfl⟩
theorem out (a : Arg) : Statement (.out a) := ⟨rfl, rfl⟩
theorem input (a : Arg) : Statement (.input a) := ⟨rfl, rfl⟩
theorem noop : Statement .noop := ⟨rfl, rfl⟩

end Sys2Proof.Laws.EncodedLength
end

