-- ==== Sys2Proof/Laws/Step.lean ====
section
/-! SUPPORT. What a step can do: one inversion lemma of `step`, one of the host's transactions, and the place of a
fetched instruction. -/

namespace Sys2Proof.Machine

theorem step_of_running {s : State} (h : s.status.runState = .running) : step s = stepRunning s := by
  simp [step, h]

/-- If a step answers a next state, the machine was RUNNING and either the decoded instruction ran on the traced
state or the fetch faulted. -/
theorem step_next {s t : State} (h : step s = .next t) :
    s.status.runState = .running ∧
      ((∃ i, decode (fetchWindow s) = .ok i ∧ exec i s.traced = .next t) ∨
        ∃ e, decode (fetchWindow s) = .error e ∧ t = s.faulted (fetchFault e)) := by
  unfold step at h
  split at h <;> try contradiction
  rename_i hrun
  refine ⟨hrun, ?_⟩
  unfold stepRunning at h
  split at h
  · exact .inl ⟨_, ‹_›, h⟩
  · exact .inr ⟨_, ‹_›, ((raise_next_iff _ _ _).mp h).symm⟩

theorem fetchWindow_length (s : State) : (fetchWindow s).length = min 4 (32768 - s.pc.toNat) :=
  window_length _ _ _

/-- The first Word of a non-empty window is the opcode Word at pc. -/
theorem fetchWindow_head {s : State} (h : s.pc.toNat < 32768) :
    ∃ ws, fetchWindow s = s.mem.readWord s.pc.toNat :: ws := by
  unfold fetchWindow Memory.window
  rw [if_pos h]
  exact ⟨_, rfl⟩

/-- A transaction between runs answers its state exactly in LOADED and HALTED. -/
theorem betweenRuns_ok {s t u : State} (h : betweenRuns s t = .ok u) :
    (s.status.runState = .loaded ∨ s.status.runState = .halted) ∧ u = t := by
  unfold betweenRuns at h
  split at h
  · rename_i hb
    refine ⟨?_, by simpa using h.symm⟩
    revert hb
    cases s.status.runState <;> simp [RunState.betweenRuns]
  · simp at h

/-- Everything a transaction of the host can do. -/
theorem hostMove_ok {m : HostMove} {s t : State} (h : hostMove m s = .ok t) :
    ((s.status.runState = .loaded ∨ s.status.runState = .halted) ∧
        (t = s.startRun ∨ (∃ q, t = s.setInq q) ∨ t = { s with outs := [] })) ∨
      (s.status.runState = .waitInput ∧ ∃ bytes, bytes ≠ [] ∧ t = (s.setInq (s.inq ++ bytes)).resume) := by
  cases m with
  | run => exact .inl ⟨(betweenRuns_ok h).1, .inl (betweenRuns_ok h).2⟩
  | enqueue bytes => exact .inl ⟨(betweenRuns_ok h).1, .inr (.inl ⟨_, (betweenRuns_ok h).2⟩)⟩
  | clearInput => exact .inl ⟨(betweenRuns_ok h).1, .inr (.inl ⟨_, (betweenRuns_ok h).2⟩)⟩
  | supplyLine bytes =>
    simp only [hostMove, hostSupplyLine] at h
    split at h
    · split at h
      · simp at h
      · exact .inr ⟨‹_›, bytes, ‹_›, by simpa using h.symm⟩
    · simp at h
  | clearOutput => exact .inl ⟨(betweenRuns_ok h).1, .inr (.inr (betweenRuns_ok h).2)⟩

end Sys2Proof.Machine
end

