-- ==== Sys2Proof/Machine/Assembler.lean ====
section
/-! DEFINITION. The assembler notation the spec fixes for its examples (30_encoding.md R83, 00_scope.md R9, D20), as
abstract syntax: it is no part of the machine, and no step reads it. -/

namespace Sys2Proof.Machine

/-- An operand: a register, a number (R83 allows 0..32767 only), a character in quotes, or a label. -/
inductive AsmOperand where
  | reg (i : Reg)
  | num (v : Literal)
  | chr (c : Char)
  | label (name : String)
  deriving DecidableEq, Repr

/-- A statement, a label definition, or `.word`. -/
inductive AsmLine where
  | instr (mnemonic : String) (ops : List AsmOperand)
  | label (name : String)
  | word (ws : List Word)
  deriving DecidableEq, Repr

/-- How many Words a line places. -/
def AsmLine.size : AsmLine → Nat
  | .instr _ ops => 1 + ops.length
  | .label _ => 0
  | .word ws => ws.length

/-- The Word address of a label in lines that begin at address `at_`. DESIGN CHOICE: of a label defined twice the first
definition counts; R83 does not say what such a program means (assumption log 11). -/
def labelAddress (name : String) : Nat → List AsmLine → Option Nat
  | _, [] => none
  | at_, .label n :: ls => if n = name then some at_ else labelAddress name at_ ls
  | at_, l :: ls => labelAddress name (at_ + l.size) ls

/-- A value as a literal argument Word: 0..32767 only. -/
def literalWord (n : Nat) : Option Word := if n < 32768 then some (BitVec.ofNat 16 n) else none

/-- The argument Word of an operand; a character stands for its ASCII code. -/
def AsmOperand.word (program : List AsmLine) : AsmOperand → Option Word
  | .reg i => some (Arg.reg i).toWord
  | .num v => some (Arg.lit v).toWord
  | .chr c => if c.toNat < 128 then literalWord c.toNat else none
  | .label name => (labelAddress name 0 program).bind literalWord

/-- The opcode and the number of operands of a mnemonic, searched from code `c` on. -/
def lookupMnemonic (mnemonic : String) : Nat → List (String × Nat) → Option (Nat × Nat)
  | _, [] => none
  | c, (m, n) :: rows => if m = mnemonic then some (c, n) else lookupMnemonic mnemonic (c + 1) rows

/-- The Words of the operands; `none` if one has none. -/
def operandWords (program : List AsmLine) : List AsmOperand → Option (List Word)
  | [] => some []
  | o :: os => (o.word program).bind fun w => (operandWords program os).map fun ws => w :: ws

/-- The Words of one line of the program. -/
def AsmLine.words (program : List AsmLine) : AsmLine → Option (List Word)
  | .instr mnemonic ops =>
    (lookupMnemonic mnemonic 0 opcodeTable).bind fun row =>
      if row.2 = ops.length then (operandWords program ops).map fun ws => BitVec.ofNat 16 row.1 :: ws else none
  | .label _ => some []
  | .word ws => some ws

/-- The Words of lines of the program, one after another. -/
def assembleLines (program : List AsmLine) : List AsmLine → Option (List Word)
  | [] => some []
  | l :: ls => (l.words program).bind fun ws => (assembleLines program ls).map fun rest => ws ++ rest

/-- The Words of a program from address 0; `none` if a mnemonic, an operand or a label is unknown. -/
def assemble (program : List AsmLine) : Option (List Word) := assembleLines program program

end Sys2Proof.Machine
end

