-- ==== Sys2Proof/Tests/Slice0.lean ====
section
/-! SUPPORT. Tests. `V<n>`, `E<n>` and `P<n>` are the spec's vectors and examples (95_test_vectors.md); the other
expected values are computed by hand from the rule named. `wit_<statement>` shows a concrete state and operands that meet the
hypotheses of the obligation of that name, clause by clause. -/

namespace Sys2Proof.Tests

open Sys2Proof.Machine

/-- A RUNNING machine at the default parameters with the Words at address 0, and pc there. -/
def at0 (ws : List Word) : State := State.reset.withWordsToRun ws

/-- The same at address `p`. -/
def atPc (p : Nat) (ws : List Word) : State := ((at0 []).jumpTo (BitVec.ofNat 16 p)).setMem (Memory.writeWords [] p ws)

/-- The same machine under REG_HIGH_WRITE = store_raw. -/
def raw (s : State) : State := { s with cfg := { s.cfg with regHighWrite := .storeRaw } }

/-- The same machine with STACK_CAPACITY = `n`. -/
def capacity (n : Nat) (s : State) : State := { s with cfg := { s.cfg with stackCapacity := some n } }

/-- The same machine, INTERACTIVE and with TRACE as given. -/
def configured (interactive trace : Bool) (s : State) : State :=
  { s with cfg := { s.cfg with interactive := interactive, trace := trace } }

/-- What `f` sees of the state after one step. -/
def seen {α : Type} (f : State → α) (s : State) : Option α :=
  match step s with
  | .next t => some (f t)
  | .fault _ => none
  | .refused _ => none

/-- The fault record after one step: kind, address, opcode, valid. -/
def faultSeen (s : State) : Option (Option FaultKind × Word × Word × Bool) :=
  seen (fun t => (t.status.faultKind, t.status.faultAddr, t.status.faultOpcode, t.status.faultOpcodeValid)) s

/-! ## Well-formedness: each check refuses an ill-formed term -/

theorem test_wf_unary_operand : (Instr.push (.invalid 32775)).wellFormed = false := by decide
theorem test_wf_first_of_two : (Instr.set (.invalid 0) (.lit 1)).wellFormed = false := by decide
theorem test_wf_second_of_two : (Instr.wmem (.lit 1) (.invalid 32768)).wellFormed = false := by decide
theorem test_wf_first_of_three : (Instr.add (.invalid 5) (.lit 1) (.lit 1)).wellFormed = false := by decide
theorem test_wf_second_of_three : (Instr.eq (.reg 0) (.invalid 5) (.lit 1)).wellFormed = false := by decide
theorem test_wf_third_of_three : (Instr.or (.reg 0) (.lit 1) (.invalid 32767)).wellFormed = false := by decide
theorem test_wf_accepts : (Instr.or (.lit 0) (.invalid 32776) (.reg 7)).wellFormed = true := by decide

/-! ## Decoding: one word of each constructor, written out from R71, R73, R77 -/

theorem test_decode_F0 :
    decode [0] = .ok .halt ∧ decode [18] = .ok .ret ∧ decode [21] = .ok .noop := ⟨rfl, rfl, rfl⟩

theorem test_decode_F1 :
    decode [2, 32768] = .ok (.push (.reg 0)) ∧ decode [3, 32769] = .ok (.pop (.reg 1)) ∧
    decode [6, 100] = .ok (.jmp (.lit 100)) ∧ decode [17, 50] = .ok (.call (.lit 50)) ∧
    decode [19, 65] = .ok (.out (.lit 65)) ∧ decode [20, 32775] = .ok (.input (.reg 7)) :=
  ⟨rfl, rfl, rfl, rfl, rfl, rfl⟩

theorem test_decode_F2 :
    decode [1, 32768, 5] = .ok (.set (.reg 0) (.lit 5)) ∧ decode [7, 32768, 50] = .ok (.jt (.reg 0) (.lit 50)) ∧
    decode [8, 32769, 50] = .ok (.jf (.reg 1) (.lit 50)) ∧ decode [14, 32770, 0] = .ok (.not (.reg 2) (.lit 0)) ∧
    decode [15, 32769, 32768] = .ok (.rmem (.reg 1) (.reg 0)) ∧
    decode [16, 200, 65535] = .ok (.wmem (.lit 200) (.invalid 65535)) := ⟨rfl, rfl, rfl, rfl, rfl, rfl⟩

theorem test_decode_F3_compare :
    decode [4, 32768, 32769, 7] = .ok (.eq (.reg 0) (.reg 1) (.lit 7)) ∧
    decode [5, 32768, 3, 2] = .ok (.gt (.reg 0) (.lit 3) (.lit 2)) := ⟨rfl, rfl⟩

theorem test_decode_F3_arithmetic :
    decode [9, 32769, 32769, 48] = .ok (.add (.reg 1) (.reg 1) (.lit 48)) ∧
    decode [10, 32768, 200, 201] = .ok (.mul (.reg 0) (.lit 200) (.lit 201)) ∧
    decode [11, 5, 1, 0] = .ok (.mod (.lit 5) (.lit 1) (.lit 0)) ∧
    decode [12, 32768, 3855, 255] = .ok (.and (.reg 0) (.lit 3855) (.lit 255)) ∧
    decode [13, 32768, 16384, 16383] = .ok (.or (.reg 0) (.lit 16384) (.lit 16383)) :=
  ⟨rfl, rfl, rfl, rfl, rfl⟩

/-- V1, V2, V3, V4 -/
theorem test_decode_rejects :
    decode [22] = .error (.unknownOpcode 22) ∧ decode [65535, 1] = .error (.unknownOpcode 65535) ∧
    decode [32768] = .error (.unknownOpcode 32768) ∧ decode [1] = .error (.operandMissing 1) ∧
    decode [] = .error .noOpcode := ⟨rfl, rfl, rfl, rfl, rfl⟩

/-- R85's example: `add r1, r1, 48` is the image bytes 09 00 01 80 01 80 30 00. -/
theorem test_image_bytes :
    imageBytes (encode (.add (.reg 1) (.reg 1) (.lit 48))) = [0x09, 0x00, 0x01, 0x80, 0x01, 0x80, 0x30, 0x00] := by
  decide

theorem test_table_word : decodeTableWord 64 0x0030800180010009 = some (.add (.reg 1) (.reg 1) (.lit 48)) := by decide

theorem test_table_row_only : decodeTableWord 16 0xFFFFFFFFFFFF0009 = some (.add (.lit 0) (.lit 0) (.lit 0)) := by decide

/-! ## One step -/

/-- E7 -/
theorem test_set : seen (fun t => (t.regs[0], t.regs[5], t.pc))
    ((at0 [1, 32768, 32773]).setReg 5 9) = some (9, 9, 3) := by decide
/-- V9 -/
theorem test_set_literal_destination : faultSeen (at0 [1, 5, 1]) = some (some .invalidOperand, 0, 1, true) := by decide
/-- V15 -/
theorem test_push : seen (fun t => (t.stack, t.pc)) ((at0 [2, 32768]).setReg 0 5) = some ([5], 2) := by decide
/-- V16f, its second step -/
theorem test_push_full : seen (fun t => (t.stack, t.status.faultKind))
    (capacity 1 ((at0 [2, 2]).setStack [1])) = some ([1], some .stackOverflow) := by decide
/-- V16b -/
theorem test_pop : seen (fun t => (t.regs[1], t.stack, t.pc)) ((at0 [3, 32769]).setStack [5, 9]) =
    some (9, [5], 2) := by decide
/-- V16c, V16d -/
theorem test_pop_high :
    seen (fun t => (t.stack, t.status.faultKind)) ((at0 [3, 32768]).setStack [32768]) =
      some ([32768], some .invalidRegisterValue) ∧
    seen (fun t => (t.regs[0], t.stack, t.pc)) (raw ((at0 [3, 32768]).setStack [32768])) = some (32768, [], 2) := by
  decide
/-- V37, V38 -/
theorem test_eq : seen (fun t => (t.regs[0], t.pc)) ((at0 [4, 32768, 32769, 7]).setReg 1 7) = some (1, 4) ∧
    seen (fun t => t.regs[0]) ((at0 [4, 32768, 32769, 7]).setReg 1 8) = some 0 := by decide
/-- V39, V40, V41 -/
theorem test_gt : seen (fun t => t.regs[0]) (at0 [5, 32768, 32767, 0]) = some 1 ∧
    seen (fun t => t.regs[0]) ((at0 [5, 32768, 0, 32767]).setReg 0 9) = some 0 ∧
    seen (fun t => t.regs[0]) ((at0 [5, 32768, 2, 2]).setReg 0 9) = some 0 := by decide
/-- V42, V44 -/
theorem test_jmp : seen (fun t => t.pc) (atPc 10 [6, 100]) = some 100 ∧
    seen (fun t => t.pc) (atPc 10 [6, 32768]) = some 0 := by decide
/-- V45, V46, V12 -/
theorem test_jt : seen (fun t => t.pc) ((atPc 10 [7, 32768, 50]).setReg 0 1) = some 50 ∧
    seen (fun t => t.pc) (atPc 10 [7, 32768, 50]) = some 13 ∧
    faultSeen (at0 [7, 0, 32776]) = some (some .invalidOperand, 0, 7, true) := by decide
/-- V47, V48 -/
theorem test_jf : seen (fun t => t.pc) (atPc 10 [8, 32768, 50]) = some 50 ∧
    seen (fun t => t.pc) ((atPc 10 [8, 32768, 50]).setReg 0 9) = some 13 := by decide
/-- V17, V18, V20, V13 -/
theorem test_add : seen (fun t => t.regs[0]) (at0 [9, 32768, 32767, 1]) = some 0 ∧
    seen (fun t => t.regs[0]) (at0 [9, 32768, 32767, 32767]) = some 32766 ∧
    seen (fun t => (t.regs[0], t.pc)) ((at0 [9, 32768, 32768, 32768]).setReg 0 7) = some (14, 4) := by decide
/-- V21, V23, V25 -/
theorem test_mul : seen (fun t => t.regs[0]) (at0 [10, 32768, 32767, 32767]) = some 1 ∧
    seen (fun t => t.regs[0]) (at0 [10, 32768, 200, 200]) = some 7232 ∧
    seen (fun t => t.regs[0]) (at0 [10, 32768, 181, 181]) = some 32761 := by decide
/-- V26, V29b -/
theorem test_mod : seen (fun t => t.regs[0]) (at0 [11, 32768, 17, 5]) = some 2 ∧
    seen (fun t => t.regs[0]) (raw (((at0 [11, 32768, 32768, 32769]).setReg 0 40000).setReg 1 50000)) =
      some 40000 := by decide
/-- V29, V11 -/
theorem test_mod_zero :
    seen (fun t => (t.regs[0], t.status.faultKind)) ((at0 [11, 32768, 17, 0]).setReg 0 4) =
      some (4, some .divideByZero) ∧
    faultSeen (at0 [11, 5, 1, 0]) = some (some .invalidOperand, 0, 11, true) := by decide
/-- V30, V36a -/
theorem test_and : seen (fun t => t.regs[0]) (at0 [12, 32768, 3855, 255]) = some 15 ∧
    seen (fun t => t.regs[0]) (raw ((at0 [12, 32768, 32768, 32768]).setReg 0 40000)) = some 40000 := by decide
/-- V32 -/
theorem test_or : seen (fun t => t.regs[0]) (at0 [13, 32768, 16384, 16383]) = some 32767 := by decide
/-- V36, V36b -/
theorem test_not : seen (fun t => (t.regs[0], t.pc)) (at0 [14, 32768, 21845]) = some (10922, 3) ∧
    seen (fun t => t.regs[0]) (raw ((at0 [14, 32768, 32768]).setReg 0 40000)) = some 25535 := by decide
/-- V50, V51 -/
theorem test_rmem : seen (fun t => t.regs[0])
      ((at0 [15, 32768, 100]).setMem ((at0 [15, 32768, 100]).mem.writeWord 100 42)) = some 42 ∧
    seen (fun t => t.regs[0]) (at0 [15, 32768, 0]) = some 15 := by decide
/-- R170 with the program's own operand Word, which is 32768; V54 -/
theorem test_rmem_faults : faultSeen (at0 [15, 32768, 1]) = some (some .invalidRegisterValue, 0, 15, true) ∧
    faultSeen (raw ((at0 [15, 32769, 32768]).setReg 0 40000)) = some (some .addressOutOfRange, 0, 15, true) := by
  decide
/-- V56, V57 -/
theorem test_wmem : seen (fun t => (t.mem.readWord 200, t.pc))
      (((at0 [16, 32768, 32769]).setReg 0 200).setReg 1 9) = some (9, 3) ∧
    seen (fun t => (t.mem.readWord 0, t.mem.readWord 1, t.mem.readWord 2)) (at0 [16, 0, 21]) = some (21, 0, 21) := by
  decide
/-- V59, V60 -/
theorem test_call : seen (fun t => (t.stack, t.pc)) (atPc 10 [17, 50]) = some ([12], 50) ∧
    seen (fun t => (t.stack, t.pc)) ((at0 [17, 32768]).setReg 0 7) = some ([2], 7) := by decide
/-- V61, V62 -/
theorem test_ret : seen (fun t => (t.stack, t.pc)) ((at0 [18]).setStack [12]) = some ([], 12) ∧
    seen (fun t => (t.status.runState, t.status.haltReason, t.pc)) (at0 [18]) =
      some (.halted, some .retEmpty, 0) := by decide
/-- V65 -/
theorem test_halt : seen (fun t => (t.status.runState, t.status.haltReason, t.pc)) (atPc 4 [0]) =
    some (.halted, some .haltInstr, 4) := by decide
/-- V67, V68 -/
theorem test_out : seen (fun t => (t.outs, t.events, t.pc)) (at0 [19, 65]) = some ([65], [.echo 65], 2) ∧
    seen (fun t => t.outs) (at0 [19, 32767]) = some [32767] := by decide
/-- V83's first event; the echo follows the trace (R95, R230). -/
theorem test_out_traced : seen (fun t => t.events) (configured false true (at0 [19, 65])) =
    some [.trace 0 19, .echo 65] := by decide
/-- V70, V75 -/
theorem test_in : seen (fun t => (t.regs[0], t.inq, t.pc)) ((at0 [20, 32768]).setInq [104, 105]) =
      some (104, [105], 2) ∧
    seen (fun t => t.regs[0]) ((at0 [20, 32768]).setInq [255]) = some 255 := by decide
/-- V71, V72, V74 -/
theorem test_in_empty :
    seen (fun t => (t.status.runState, t.status.haltReason, t.pc)) (at0 [20, 32768]) =
      some (.halted, some .inputExhausted, 0) ∧
    seen (fun t => (t.status.runState, t.pc)) (configured true false (at0 [20, 32768])) = some (.waitInput, 0) ∧
    faultSeen (at0 [20, 5]) = some (some .invalidOperand, 0, 20, true) := by decide
/-- V66 -/
theorem test_noop : seen (fun t => t.pc) (atPc 7 [21]) = some 8 := by decide

/-- V1, V4, V5, V6 -/
theorem test_fetch :
    faultSeen (at0 [22]) = some (some .unknownOpcode, 0, 22, true) ∧
    faultSeen (atPc 32767 [1]) = some (some .addressOutOfRange, 32767, 1, true) ∧
    faultSeen (atPc 32768 []) = some (some .addressOutOfRange, 32768, 0, false) ∧
    seen (fun t => t.pc) (atPc 32767 [21]) = some 32768 := by decide

/-- V84, V85: a decode fault is not traced, an operand fault is. -/
theorem test_trace_of_faults :
    seen (fun t => t.events) (configured false true (at0 [22])) = some [] ∧
    seen (fun t => t.events) (configured false true (at0 [19, 32776])) = some [.trace 0 19] := by decide

/-- V81, V80 -/
theorem test_host :
    hostMove (.supplyLine []) (at0 []).waiting = .error .emptyLine ∧
    hostMove .run ((at0 []).faulted .unknownOpcode) = .error (.notAllowedIn .faulted) := ⟨rfl, rfl⟩

/-- What `f` sees of the machine booted from an image; `none` if the load is rejected. -/
def booted {α : Type} (f : State → α) (image : List Byte) : Option α :=
  match boot Config.default image with
  | .ok s => some (f s)
  | .error _ => none

/-- V76's image of 10 bytes, cut to its first two Words, with a Word of 0x8000 behind; E10's odd image. -/
theorem test_boot :
    booted (fun s => ((s.mem.readWord 0, s.mem.readWord 1), (s.mem.readWord 2, s.mem.readWord 3), s.status.runState))
      [0x13, 0x00, 0x41, 0x00, 0x00, 0x80] = some ((19, 65), (32768, 0), .loaded) ∧
    booted (fun s => s.pc) [0x13, 0x00, 0x41] = none := by decide

/-- Each row of the opcode table has the length the decoder gives its code, and 22 is no row (R72, R77). -/
theorem test_opcode_table :
    (List.range 22).map (fun c => match decode [BitVec.ofNat 16 c, 0, 0, 0] with
      | .ok i => i.length
      | .error _ => 0) = opcodeTable.map (fun row => 1 + row.2) := by decide

/-- P4's listing with its label `sum`, cut after the first ret, and R83's `.word` and character forms -/
theorem test_assemble :
    assemble [.instr "set" [.reg 0, .num 5], .instr "call" [.label "sum"], .instr "out" [.chr 'A'], .instr "halt" [],
        .word [65535], .label "sum", .instr "add" [.reg 1, .reg 1, .reg 0], .instr "jt" [.reg 0, .label "sum"]] =
      some [1, 32768, 5, 17, 9, 19, 65, 0, 65535, 9, 32769, 32769, 32768, 7, 32768, 9] ∧
    assemble [.instr "sub" [.reg 0, .num 1]] = none ∧ assemble [.instr "push" []] = none := by decide

/-! ## Witnesses of hypotheses -/

theorem wit_DecodeReadsBackEncode :
    (Instr.add (.lit 32767) (.reg 7) (.invalid 32776)).wellFormed = true ∧ (Instr.push (.invalid 65535)).wellFormed = true := by
  decide

theorem wit_EncodeReadsBackDecode : decode [16, 65535, 32775, 9] = .ok (.wmem (.invalid 65535) (.reg 7)) := rfl

theorem wit_IllegalOpcodesFault :
    (at0 [22]).status.runState = .running ∧ (at0 [22]).pc.toNat < 32768 ∧ 21 < ((at0 [22]).mem.readWord 0).toNat ∧
    (atPc 32767 [65535]).pc.toNat < 32768 ∧ 21 < ((atPc 32767 [65535]).mem.readWord 32767).toNat := by decide

theorem wit_ArgumentWords :
    (32767 : Word).toNat < 32768 ∧ (32768 : Word).toNat = 32768 + (0 : Reg).val ∧
    (32775 : Word).toNat = 32768 + (7 : Reg).val ∧ 32776 ≤ (32776 : Word).toNat := by decide

theorem wit_UnresolvedOperandFaults :
    operandsResolve (.jf (.lit 1) (.invalid 32776)) (at0 []) = false ∧
    operandsResolve (.input (.lit 0)) (at0 []) = false := by decide

theorem wit_FaultsArePreciseAndFinal :
    seen (fun t => t.status.runState) (at0 [11, 32768, 1, 0]) = some .faulted ∧
    ((at0 []).faulted .divideByZero).status.runState = .faulted := by decide

/-- set and not: both a destination and a value; the guard's two sides; each failure -/
theorem wit_dest_value :
    target (.reg 7) = some 7 ∧ resolve (.lit 32767) (at0 []) = some 32767 ∧ (32767 : Word).toNat < 32768 ∧
    resolve (.reg 0) (raw ((at0 []).setReg 0 32768)) = some 32768 ∧
    (raw (at0 [])).cfg.regHighWrite = .storeRaw ∧
    resolve (.reg 0) ((at0 []).setReg 0 32768) = some 32768 ∧ (at0 []).cfg.regHighWrite = .fault ∧
    target (.lit 0) = none ∧ target (.invalid 32776) = none ∧ resolve (.invalid 32776) (at0 []) = none := by decide

theorem wit_narrow : (at0 []).Narrow ∧ (at0 []).cfg.regHighWrite = .fault := by
  refine ⟨fun _ => ⟨fun i => ?_, Nat.zero_le _, fun v h => (List.not_mem_nil h).elim, fun v h =>
    (List.not_mem_nil h).elim⟩, rfl⟩
  change ((Vector.replicate 8 (0 : Word))[i]).toNat < 32768
  simp

/-- push and call: room, and a full stack -/
theorem wit_push :
    (at0 []).cfg.stackCapacity ≠ some (at0 []).stack.length ∧
    (capacity 1 (at0 [])).cfg.stackCapacity ≠ some (capacity 1 (at0 [])).stack.length ∧
    (capacity 0 (at0 [])).cfg.stackCapacity = some (capacity 0 (at0 [])).stack.length := by decide

/-- pop and ret: an entry on either side of the guard, and an empty stack -/
theorem wit_pop :
    ((at0 []).setStack [5, 32767]).stack = [5] ++ [32767] ∧ ((at0 []).setStack [32768]).stack = [] ++ [32768] ∧
    (at0 []).stack = [] := by decide

/-- mod: a zero divisor, a remainder on either side of the guard -/
theorem wit_mod :
    (0 : Word) = 0 ∧ (32767 : Word) ≠ 0 ∧ (32766 : Word).toNat % (32767 : Word).toNat < 32768 ∧
    (50000 : Word) ≠ 0 ∧ 32768 ≤ (32768 : Word).toNat % (50000 : Word).toNat := by decide

/-- and, or: results on either side of the guard -/
theorem wit_and_or :
    ((32767 : Word) &&& 32767).toNat < 32768 ∧ 32768 ≤ ((32768 : Word) &&& 32768).toNat ∧
    ((32767 : Word) ||| 32767).toNat < 32768 ∧ 32768 ≤ ((32768 : Word) ||| 0).toNat := by decide

/-- rmem and wmem: the last address of memory, and the first beyond -/
theorem wit_memory :
    resolve (.lit 32767) (at0 []) = some 32767 ∧ (32767 : Word).toNat < 32768 ∧
    resolve (.reg 0) (raw ((at0 []).setReg 0 32768)) = some 32768 ∧ 32768 ≤ (32768 : Word).toNat ∧
    ((at0 [15, 32768, 1]).mem.readWord 1).toNat = 32768 := by decide

/-- in: a byte, and an empty queue in both configurations -/
theorem wit_in :
    ((at0 []).setInq [255, 0]).inq = 255 :: [0] ∧ (at0 []).inq = [] ∧ (at0 []).cfg.interactive = false ∧
    (configured true false (at0 [])).cfg.interactive = true := by decide

theorem wit_StepRunsTheDecodedInstruction :
    (atPc 32767 [21]).status.runState = .running ∧ decode (fetchWindow (atPc 32767 [21])) = .ok .noop :=
  ⟨rfl, rfl⟩

theorem wit_StepRunsTheStoredInstruction :
    (atPc 32766 [17, 50]).status.runState = .running ∧ (Instr.call (.lit 50)).wellFormed = true ∧
    (atPc 32766 [17, 50]).pc.toNat + (Instr.call (.lit 50)).length ≤ 32768 ∧
    ∀ (k : Nat) (w : Word), (encode (.call (.lit 50)))[k]? = some w →
      (atPc 32766 [17, 50]).mem.readWord ((atPc 32766 [17, 50]).pc.toNat + k) = w := by
  refine ⟨rfl, by decide, by decide, fun k w h => ?_⟩
  match k, h with
  | 0, h => cases h; decide
  | 1, h => cases h; decide
  | _ + 2, h => cases h

theorem wit_PlacedWordIsRunNext : decodeTableWord 16 18 = some .ret ∧ decodeTableWord 32 0x80000014 = some (.input (.reg 0)) := by
  decide

theorem wit_FetchOutsideMemoryFaults :
    32768 ≤ (atPc 32768 []).pc.toNat ∧ (atPc 32767 [2]).pc.toNat < 32768 ∧
    (encode (.push (.lit 0))).head? = some ((atPc 32767 [2]).mem.readWord 32767) ∧
    32768 < (atPc 32767 [2]).pc.toNat + (Instr.push (.lit 0)).length := by decide

/-- Each RUN_STATE is some state's. -/
theorem wit_StepsExactlyWhenRunning :
    (at0 []).status.runState = .running ∧ State.reset.status.runState = .loaded ∧
    (at0 []).waiting.status.runState = .waitInput ∧ ((at0 []).halted .retEmpty).status.runState = .halted ∧
    ((at0 []).faulted .stackUnderflow).status.runState = .faulted := by decide

/-- A step with each of the outcomes -/
theorem wit_steps :
    (seen id (at0 [9, 32768, 1, 2])).isSome = true ∧ (seen id (at0 [22])).isSome = true ∧
    (seen id (at0 [0])).isSome = true ∧ (seen id (configured true false (at0 [20, 32768]))).isSome = true := by decide

theorem wit_OnlyDestinationRegistersChange (s : State) :
    (∃ t, exec (.add (.reg 0) (.lit 1) (.lit 2)) s = .next t) ∧
    ∀ a, Operand.dest a ∈ operands (.add (.reg 0) (.lit 1) (.lit 2)) → target a ≠ some 1 := by
  refine ⟨⟨_, rfl⟩, fun a h => ?_⟩
  simp only [operands, List.mem_cons, Operand.dest.injEq, List.not_mem_nil, reduceCtorEq, or_false] at h
  subst h
  decide

theorem wit_frames (s : State) :
    (∃ t, exec (.jmp (.lit 5)) s = .next t) ∧ (∃ t, exec (.wmem (.lit 32767) (.lit 1)) s = .next t) ∧
    resolve (.lit 32767) s = some 32767 ∧ (∃ t, exec .noop s = .next t) ∧ (∃ t, exec (.out (.lit 1)) s = .next t) :=
  ⟨⟨_, rfl⟩, ⟨_, rfl⟩, rfl, ⟨_, rfl⟩, ⟨_, rfl⟩⟩

theorem wit_OnlyControlTransfersSetThePc :
    (at0 []).status.runState = .running ∧
    (∃ t, exec .noop (at0 []) = .next t ∧ t.status.runState = .running) ∧
    ∃ t, exec .halt (at0 []) = .next t ∧ t.status.runState ≠ .running :=
  ⟨rfl, ⟨_, rfl, rfl⟩, ⟨_, rfl, by decide⟩⟩

theorem wit_invariants :
    (at0 [9, 32768, 1, 2]).mem.wf = true ∧ (at0 []).status.coherent = true ∧ (at0 []).faultRecordExact = true ∧
    (capacity 1 ((at0 []).setStack [32768])).withinCapacity = true ∧ State.reset.mem.wf = true := by decide

theorem wit_Reachable : Reachable State.reset := .boot (cfg := Config.default) (image := []) rfl

/-- Each hypothesis of the invariant's step: a state that meets it, with a host transaction and, RUNNING, a step. -/
theorem wit_ReachableStatesKeepTheInvariant :
    State.reset.Inv ∧ (∃ t, hostMove .run State.reset = .ok t) ∧
    State.reset.startRun.Inv ∧ (∃ t, step State.reset.startRun = .next t) ∧
    boot Config.default [] = .ok State.reset := by
  have narrow : State.reset.Narrow := fun _ => ⟨fun i => by
    change ((Vector.replicate 8 (0 : Word))[i]).toNat < 32768
    simp, Nat.zero_le _, fun _ h => (List.not_mem_nil h).elim, fun _ h => (List.not_mem_nil h).elim⟩
  exact ⟨⟨by decide, narrow, by decide, by decide, by decide⟩, ⟨_, rfl⟩,
    ⟨by decide, narrow, by decide, by decide, by decide⟩, ⟨_, rfl⟩, rfl⟩

theorem wit_TraceHasNoEffect : step State.reset = .fault .notStarted ∧ (∃ t, step (at0 [0]) = .next t) :=
  ⟨rfl, _, rfl⟩

theorem wit_PopReadsBackPush :
    resolve (.lit 32767) (capacity 1 (at0 [])) = some 32767 ∧ target (.reg 7) = some 7 ∧
    (capacity 1 (at0 [])).cfg.stackCapacity ≠ some (capacity 1 (at0 [])).stack.length := by decide

/-- The written cell is the next opcode: V58's first step. -/
theorem wit_NextFetchSeesTheWrite :
    resolve (.lit 3) (at0 [16, 3, 0]) = some 3 ∧ resolve (.lit 0) (at0 [16, 3, 0]) = some 0 ∧
    seen (fun t => (t.pc, t.mem.readWord 3)) (at0 [16, 3, 0, 19]) = some (3, 0) := by decide

theorem wit_SuppliedLineCompletesTheIn :
    seen (fun t => t.status.runState) (configured true false (at0 [20, 32768])) = some .waitInput := by decide

theorem wit_HaltedRunHaltsAgain :
    seen (fun t => (t.status.runState, t.status.haltReason)) (at0 [18]) = some (.halted, some .retEmpty) := by decide

theorem wit_RerunTakesTheEnqueuedByte :
    seen (fun t => (t.status.runState, t.status.haltReason)) (at0 [20, 32768]) = some (.halted, some .inputExhausted) := by
  decide

/-- A run of two echoed bytes, INTERACTIVE: `in r0; out r0; in r1; out r1; halt`. -/
def echoTwo : State := configured true false (at0 [20, 32768, 19, 32768, 20, 32769, 19, 32769, 0])

/-- R251: past two answered Waits the run ends in HALTED; an unanswered Wait, or an empty line, gives no end. -/
theorem test_runToEnd :
    (runToEnd 7 [[104], [105, 10]] echoTwo).map (fun t => (t.outs, t.inq, t.pc)) = some ([104, 105], [10], 8) ∧
    (runToEnd 20 [[104]] echoTwo).isNone = true ∧ (runToEnd 20 [[104], []] echoTwo).isNone = true := by decide

/-- An end by a halt and one by a fault, a suspension that a line answers, and a jump to itself at the last place of
memory where one fits. -/
theorem wit_RunEndIsDefinite :
    (∃ t, runUntilStop 1 (at0 [0]) = some t ∧ t.RunEnded) ∧ (∃ t, runUntilStop 1 (at0 [22]) = some t ∧ t.RunEnded) ∧
    (∃ t, runUntilStop 1 echoTwo = some t ∧ t.RunSuspended ∧ ∃ u, hostMove (.supplyLine [10]) t = .ok u) ∧
    (runToEnd 1 [] (at0 [0])).isSome = true ∧
    (atPc 32766 [6, 32766]).status.runState = .running ∧
    decode (fetchWindow (atPc 32766 [6, 32766])) = .ok (.jmp (.lit 32766)) ∧
    resolve (.lit 32766) (atPc 32766 [6, 32766]) = some (atPc 32766 [6, 32766]).pc :=
  ⟨⟨_, rfl, .inl ⟨rfl, .haltInstr, rfl, rfl⟩⟩, ⟨_, rfl, .inr ⟨rfl, .unknownOpcode, rfl⟩⟩,
    ⟨_, rfl, ⟨rfl, ⟨0, rfl⟩, rfl, rfl⟩, _, rfl⟩, rfl, rfl, rfl, rfl⟩

/-- The cause of each kind of fault that a decoded instruction can raise, in some state. -/
theorem test_fault_causes :
    FaultCause (.jmp (.invalid 32776)) (at0 []) .invalidOperand ∧
    FaultCause (.rmem (.reg 0) (.reg 1)) (raw ((at0 []).setReg 1 32768)) .addressOutOfRange ∧
    FaultCause (.pop (.reg 0)) (at0 []) .stackUnderflow ∧
    FaultCause (.mod (.reg 0) (.lit 1) (.lit 0)) (at0 []) .divideByZero ∧
    FaultCause (.pop (.reg 0)) ((at0 []).setStack [32768]) .invalidRegisterValue ∧
    FaultCause (.push (.lit 0)) (capacity 0 (at0 [])) .stackOverflow :=
  ⟨rfl, ⟨.reg 0, .reg 1, 32768, by decide, .inl ⟨rfl, by decide⟩⟩, ⟨⟨.reg 0, rfl⟩, rfl⟩,
    ⟨.reg 0, .lit 1, .lit 0, rfl, rfl⟩, ⟨rfl, 32768, by decide, [], rfl⟩, ⟨.lit 0, .inl rfl⟩, rfl⟩

theorem wit_BootLoadsTheImage :
    65536 < (List.replicate 65537 (0 : Byte)).length ∧
    ([(0x13 : Byte)].length ≤ 65536 ∧ [(0x13 : Byte)].length % 2 = 1) ∧
    (List.replicate 65536 (0 : Byte)).length ≤ 65536 ∧ (List.replicate 65536 (0 : Byte)).length % 2 = 0 := by
  rw [List.length_replicate, List.length_replicate]
  decide

theorem wit_host_moves :
    (State.reset.status.runState = .loaded ∧ hostMove .run State.reset = .ok State.reset.startRun) ∧
    ((at0 []).halted .haltInstr).status.runState = .halted ∧
    hostMove (.supplyLine [10]) (at0 []).waiting = .ok ((at0 []).setInq [10]) ∧
    (at0 []).status.runState ≠ .loaded ∧ (at0 []).status.runState ≠ .halted := by
  refine ⟨⟨rfl, rfl⟩, rfl, rfl, by decide, by decide⟩

end Sys2Proof.Tests
end

section
/-! PROOFS. What an instruction can do, said once for all 22 (spec 40_execution.md R99 to R101), and what follows for
a step: a property that the trace event, a fault's entry and every instruction keep is kept by every step. -/

namespace Sys2Proof.Machine

/-! ## The effects of an instruction -/

/-- The next states that `exec i s` can answer, one constructor per kind of effect. -/
inductive ExecEffect (i : Instr) (s : State) : State → Prop
  /-- any fault; its causes are in `exec_faulted` -/
  | fault (kind : FaultKind) : ExecEffect i s (s.faulted kind)
  /-- a destination register takes a Word that the guard of R23 lets it take -/
  | write {a : Arg} {r : Reg} {v : Word} (ha : .dest a ∈ operands i) (hr : target a = some r)
      (hv : s.mayWrite v = true) : ExecEffect i s ((s.setReg r v).advance i.length)
  /-- noop, or a branch that is not taken -/
  | skip : ExecEffect i s (s.advance i.length)
  /-- jmp, or a branch that is taken -/
  | jump {b : Arg} {dst : Word} (hi : i = .jmp b ∨ ∃ c, i = .jt c b ∨ i = .jf c b) (hdst : resolve b s = some dst) :
      ExecEffect i s (s.jumpTo dst)
  | push {a : Arg} {v : Word} (hi : i = .push a) (hv : resolve a s = some v) (hf : s.stackFull = false) :
      ExecEffect i s ((s.setStack (s.stack ++ [v])).advance i.length)
  | pop {a : Arg} {r : Reg} {st : List Word} {v : Word} (hi : i = .pop a) (hr : target a = some r)
      (hst : s.stack = st ++ [v]) (hv : s.mayWrite v = true) :
      ExecEffect i s (((s.setStack st).setReg r v).advance i.length)
  | call {a : Arg} {dst : Word} (hi : i = .call a) (hdst : resolve a s = some dst) (hf : s.stackFull = false) :
      ExecEffect i s ((s.setStack (s.stack ++ [s.ipAfter i.length])).jumpTo dst)
  | ret {st : List Word} {dst : Word} (hi : i = .ret) (hst : s.stack = st ++ [dst]) :
      ExecEffect i s ((s.setStack st).jumpTo dst)
  | store {a b : Arg} {addr v : Word} (hi : i = .wmem a b) (ha : resolve a s = some addr) (hv : resolve b s = some v)
      (hlt : addr.toNat < 32768) : ExecEffect i s ((s.setMem (s.mem.writeWord addr.toNat v)).advance i.length)
  | emit {a : Arg} {v : Word} (hi : i = .out a) (hv : resolve a s = some v) :
      ExecEffect i s ((s.emit v).advance i.length)
  | take {a : Arg} {r : Reg} {b : Byte} {q : List Byte} (hi : i = .input a) (hr : target a = some r)
      (hq : s.inq = b :: q) : ExecEffect i s (((s.setInq q).setReg r (zext16 b)).advance i.length)
  | wait {a : Arg} {r : Reg} (hi : i = .input a) (hr : target a = some r) (hq : s.inq = [])
      (hc : s.cfg.interactive = true) : ExecEffect i s s.waiting
  | inputExhausted {a : Arg} {r : Reg} (hi : i = .input a) (hr : target a = some r) (hq : s.inq = [])
      (hc : s.cfg.interactive = false) : ExecEffect i s (s.halted .inputExhausted)
  | retEmpty (hi : i = .ret) (hst : s.stack = []) : ExecEffect i s (s.halted .retEmpty)
  | haltInstr (hi : i = .halt) : ExecEffect i s (s.halted .haltInstr)

theorem binaryToReg_effect {f : Word → Word → Word} {i : Instr} {a b c : Arg} {s t : State}
    (ha : .dest a ∈ operands i) (hl : i.length = 4) (h : binaryToReg f a b c s = .next t) : ExecEffect i s t := by
  rcases binaryToReg_next h with ⟨r, u, w, hr, -, -, hv, rfl⟩ | ⟨kind, rfl⟩
  · exact hl ▸ .write ha hr hv
  · exact .fault kind

theorem unaryToReg_effect {f : Word → Word} {i : Instr} {a b : Arg} {s t : State}
    (ha : .dest a ∈ operands i) (hl : i.length = 3) (h : unaryToReg f a b s = .next t) : ExecEffect i s t := by
  rcases unaryToReg_next h with ⟨r, u, hr, -, hv, rfl⟩ | ⟨kind, rfl⟩
  · exact hl ▸ .write ha hr hv
  · exact .fault kind

theorem branch_effect {test : Word → Bool} {i : Instr} {a b : Arg} {s t : State} (hi : i = .jt a b ∨ i = .jf a b)
    (hl : i.length = 3) (h : branch test a b s = .next t) : ExecEffect i s t := by
  rcases branch_next h with ⟨u, dst, -, hdst, rfl⟩ | ⟨kind, rfl⟩
  · split
    · exact .jump (.inr ⟨a, hi⟩) hdst
    · exact hl ▸ .skip
  · exact .fault kind

/-- Every instruction has one of the effects, or answers no next state. -/
theorem exec_effect {i : Instr} {s t : State} (h : exec i s = .next t) : ExecEffect i s t := by
  cases i with
  | halt => cases h; exact .haltInstr rfl
  | noop => cases h; exact .skip
  | eq a b c | gt a b c | add a b c | mul a b c | and a b c | or a b c => exact binaryToReg_effect (.head _) rfl h
  | set a b | not a b => exact unaryToReg_effect (.head _) rfl h
  | jt a b => exact branch_effect (.inl rfl) rfl h
  | jf a b => exact branch_effect (.inr rfl) rfl h
  | mod a b c =>
    rcases execMod_next h with ⟨r, u, w, hr, -, -, -, hv, rfl⟩ | ⟨kind, rfl⟩
    · exact .write (.head _) hr hv
    · exact .fault kind
  | rmem a b =>
    rcases execRmem_next h with ⟨r, addr, hr, -, -, hv, rfl⟩ | ⟨kind, rfl⟩
    · exact .write (.head _) hr hv
    · exact .fault kind
  | wmem a b =>
    rcases execWmem_next h with ⟨addr, v, ha, hv, hlt, rfl⟩ | ⟨kind, rfl⟩
    · exact .store rfl ha hv hlt
    · exact .fault kind
  | jmp a =>
    rcases execJmp_next h with ⟨dst, hdst, rfl⟩ | ⟨kind, rfl⟩
    · exact .jump (.inl rfl) hdst
    · exact .fault kind
  | push a =>
    rcases execPush_next h with ⟨v, hv, hf, rfl⟩ | ⟨kind, rfl⟩
    · exact .push rfl hv hf
    · exact .fault kind
  | pop a =>
    rcases execPop_next h with ⟨r, st, v, hr, hst, hv, rfl⟩ | ⟨kind, rfl⟩
    · exact .pop rfl hr hst hv
    · exact .fault kind
  | call a =>
    rcases execCall_next h with ⟨dst, hdst, hf, rfl⟩ | ⟨kind, rfl⟩
    · exact .call rfl hdst hf
    · exact .fault kind
  | ret =>
    rcases execRet_next h with ⟨st, dst, hst, rfl⟩ | ⟨hst, rfl⟩
    · exact .ret rfl hst
    · exact .retEmpty rfl hst
  | out a =>
    rcases execOut_next h with ⟨v, hv, rfl⟩ | ⟨kind, rfl⟩
    · exact .emit rfl hv
    · exact .fault kind
  | input a =>
    rcases execIn_next h with ⟨r, b, q, hr, hq, rfl⟩ | ⟨r, hr, hq, rfl⟩ | ⟨kind, rfl⟩
    · exact .take rfl hr hq
    · split
      · exact .wait rfl hr hq ‹_›
      · exact .inputExhausted rfl hr hq (Bool.eq_false_iff.mpr ‹_›)
    · exact .fault kind

/-! ## From the instructions to the step -/

/-- A step keeps what the trace event, a fault's entry and every instruction fetched at pc keep. -/
theorem step_preserves {P : State → Prop} {s t : State} (htraced : P s → P s.traced)
    (hfault : ∀ kind, s.status.runState = .running → P s → P (s.faulted kind))
    (hexec : ∀ i, s.status.runState = .running → decode (fetchWindow s) = .ok i → P s.traced →
      exec i s.traced = .next t → P t)
    (hs : P s) (h : step s = .next t) : P t := by
  obtain ⟨hrun, ⟨i, hd, h⟩ | ⟨e, -, rfl⟩⟩ := step_next h
  · exact hexec i hrun hd (htraced hs) h
  · exact hfault _ hrun hs

end Sys2Proof.Machine
end

section
/-! PROOFS. The frames of registers, stack and streams, and the configuration (spec 10_state.md R22, R26 to R28, R35
to R37). -/

namespace Sys2Proof.Machine

/-- A write through a destination operand leaves every register that the operand does not name. -/
theorem regs_set_of_target_ne {a : Arg} {r j : Reg} (hr : target a = some r) (hj : target a ≠ some j)
    (regs : Vector Word 8) (v : Word) : (regs.set r v)[j] = regs[j] := by
  rw [regs_set_getElem, if_neg]
  rintro rfl
  exact hj hr

theorem exec_cfg {i : Instr} {s t : State} (h : exec i s = .next t) : t.cfg = s.cfg := by
  cases exec_effect h with
  | _ => rfl

/-- What an instruction appends to the sink it echoes: nothing, or one value. -/
theorem exec_appends {i : Instr} {s t : State} (h : exec i s = .next t) :
    ∃ vs : List Word, vs.length ≤ 1 ∧ t.outs = s.outs ++ vs ∧ t.events = s.events ++ vs.map Event.echo := by
  cases exec_effect h with
  | @emit _ v => exact ⟨[v], Nat.le_refl 1, rfl, rfl⟩
  | _ => exact ⟨[], Nat.zero_le 1, (List.append_nil _).symm, (List.append_nil _).symm⟩

end Sys2Proof.Machine

open Sys2Proof Sys2Proof.Machine

/-- Settles O34: the effects that write a register write the one their destination operand names. -/
theorem onlyDestinationRegistersChange : Obligations.OnlyDestinationRegistersChange := by
  intro i s t h j hj
  cases exec_effect h with
  | write ha hr => exact regs_set_of_target_ne hr (hj _ ha) _ _
  | pop hi hr => subst hi; exact regs_set_of_target_ne hr (hj _ (.head _)) _ _
  | take hi hr => subst hi; exact regs_set_of_target_ne hr (hj _ (.head _)) _ _
  | _ => rfl

/-- Settles O36, effect by effect: push and call add an entry, pop and ret take one. -/
theorem onlyStackInstructionsChangeTheStack : Obligations.OnlyStackInstructionsChangeTheStack := by
  intro i s t h
  cases exec_effect h with
  | push hi => exact ⟨fun hn => absurd hi (hn _).1, .inr (.inl ⟨_, rfl⟩)⟩
  | call hi => exact ⟨fun hn => absurd hi (hn _).2.2, .inr (.inl ⟨_, rfl⟩)⟩
  | pop hi _ hst => exact ⟨fun hn => absurd hi (hn _).2.1, .inr (.inr ⟨_, hst⟩)⟩
  | ret hi hst => exact ⟨fun _ hn => absurd hi hn, .inr (.inr ⟨_, hst⟩)⟩
  | _ => exact ⟨fun _ _ => rfl, .inl rfl⟩

/-- Settles O37, effect by effect: `in` takes the head of the queue, `out` emits. -/
theorem onlyInAndOutTouchTheStreams : Obligations.OnlyInAndOutTouchTheStreams := by
  intro i s t h
  cases exec_effect h with
  | take hi _ hq => exact ⟨fun hn => absurd hi (hn _), .inr ⟨_, hq⟩, fun _ => ⟨rfl, rfl⟩⟩
  | emit hi => exact ⟨fun _ => rfl, .inl rfl, fun hn => absurd hi (hn _)⟩
  | _ => exact ⟨fun _ => rfl, .inl rfl, fun _ => ⟨rfl, rfl⟩⟩

/-- Settles O39: no effect and no transaction writes the field. -/
theorem configurationNeverChanges : Obligations.ConfigurationNeverChanges := by
  constructor
  · intro s t h
    exact step_preserves (P := fun u => u.cfg = s.cfg) (fun _ => traced_cfg s) (fun _ _ _ => rfl)
      (fun _ _ _ hs h => (exec_cfg h).trans hs) rfl h
  · intro m s t h
    rcases hostMove_ok h with ⟨-, rfl | ⟨q, rfl⟩ | rfl⟩ | ⟨-, bytes, -, rfl⟩ <;> rfl

/-- Settles O47: the instruction appends after the trace event; a fetch that faults appends nothing. -/
theorem outputIsAppendOnly : Obligations.OutputIsAppendOnly := by
  intro s t h
  obtain ⟨-, ⟨i, -, h⟩ | ⟨e, -, rfl⟩⟩ := step_next h
  · obtain ⟨vs, hlen, houts, hevents⟩ := exec_appends h
    exact ⟨vs, hlen, houts.trans (by rw [traced_outs]), .inl hevents⟩
  · exact ⟨[], Nat.zero_le 1, (List.append_nil _).symm, .inr rfl⟩

end

section
/-! PROOFS. A decoded instruction lies inside memory, so ip_after_decode is at most 32768 (spec 40_execution.md R96,
R97). -/

namespace Sys2Proof

theorem decodeF1_length_le {mk : Arg → Instr} {op : Word} {ws : List Word} {i : Instr}
    (hl : ∀ a, (mk a).length = 2) (h : decodeF1 mk op ws = .ok i) : i.length ≤ (op :: ws).length := by
  obtain ⟨a, r, rfl, rfl⟩ := decodeF1_ok h
  simp [hl]

theorem decodeF2_length_le {mk : Arg → Arg → Instr} {op : Word} {ws : List Word} {i : Instr}
    (hl : ∀ a b, (mk a b).length = 3) (h : decodeF2 mk op ws = .ok i) : i.length ≤ (op :: ws).length := by
  obtain ⟨a, b, r, rfl, rfl⟩ := decodeF2_ok h
  simp [hl]

theorem decodeF3_length_le {mk : Arg → Arg → Arg → Instr} {op : Word} {ws : List Word} {i : Instr}
    (hl : ∀ a b c, (mk a b c).length = 4) (h : decodeF3 mk op ws = .ok i) : i.length ≤ (op :: ws).length := by
  obtain ⟨a, b, c, r, rfl, rfl⟩ := decodeF3_ok h
  simp [hl]

/-- The decoder takes no more Words than it is given. The cases are the rows of the opcode map, from opcode 0 on. -/
theorem decode_length_le {ws : List Word} {i : Instr} (h : decode ws = .ok i) : i.length ≤ ws.length := by
  cases ws with
  | nil => cases h
  | cons op ws =>
    simp only [decode] at h
    split at h
    case h_1 | h_19 | h_22 => cases h; exact Nat.le_add_left 1 ws.length
    case h_3 | h_4 | h_7 | h_18 | h_20 | h_21 => exact decodeF1_length_le (fun _ => rfl) h
    case h_2 | h_8 | h_9 | h_15 | h_16 | h_17 => exact decodeF2_length_le (fun _ _ => rfl) h
    case h_5 | h_6 | h_10 | h_11 | h_12 | h_13 | h_14 => exact decodeF3_length_le (fun _ _ _ => rfl) h
    case h_23 => cases h

namespace Machine

/-- Every Word of a fetched instruction lies in memory (R96). -/
theorem fetched_fits {s : State} {i : Instr} (h : decode (fetchWindow s) = .ok i) :
    s.pc.toNat + i.length ≤ 32768 := by
  have hle := decode_length_le h
  rw [fetchWindow_length] at hle
  have := (length_pos_le_four i).1
  omega

theorem ipAfter_le_of_fetched {s : State} {i : Instr} (h : decode (fetchWindow s) = .ok i) :
    (s.ipAfter i.length).toNat ≤ 32768 := by
  have := fetched_fits h
  simp only [State.ipAfter, BitVec.toNat_add, BitVec.toNat_ofNat]
  omega

@[simp] theorem ipAfter_traced (s : State) (n : Nat) : s.traced.ipAfter n = s.ipAfter n := by
  simp [State.ipAfter]

end Machine

end Sys2Proof
end

section
/-! PROOFS. The invariants of a step: narrow values, canonical memory, a coherent status record, a stack within its
capacity (spec 10_state.md R23, R25 to R27, R31, R36). -/

namespace Sys2Proof.Machine

/-! ## Narrow values -/

/-- A resolved value is a literal, which is in V15, or a register's (R93). -/
theorem resolve_lt_of_regs {a : Arg} {s : State} {v : Word} (hregs : ∀ i : Reg, s.regs[i].toNat < 32768)
    (h : resolve a s = some v) : v.toNat < 32768 := by
  cases a with
  | lit l =>
    cases h
    have := l.isLt
    rw [BitVec.toNat_setWidth]
    omega
  | reg i => cases h; exact hregs i
  | invalid w => cases h

theorem lt_of_mayWrite {s : State} {v : Word} (hf : s.cfg.regHighWrite = .fault) (h : s.mayWrite v = true) :
    v.toNat < 32768 := by
  rcases (mayWrite_iff s v).mp h with h | h
  · exact h
  · rw [hf] at h; cases h

theorem regs_set_lt {regs : Vector Word 8} {v : Word} (hregs : ∀ i : Reg, regs[i].toNat < 32768)
    (hv : v.toNat < 32768) (r i : Reg) : (regs.set r v)[i].toNat < 32768 := by
  rw [regs_set_getElem]
  split
  · exact hv
  · exact hregs i

/-- The entries below the top keep the bound, and so does the top. -/
theorem stack_split_le {l st : List Word} {v : Word} (hl : ∀ w ∈ l, w.toNat ≤ 32768) (h : l = st ++ [v]) :
    (∀ w ∈ st, w.toNat ≤ 32768) ∧ v.toNat ≤ 32768 := by
  subst h
  exact ⟨fun w hw => hl w (List.mem_append_left _ hw), hl v List.mem_concat_self⟩

theorem forall_mem_concat {p : Word → Prop} {l : List Word} {v : Word} (hl : ∀ w ∈ l, p w) (hv : p v) :
    ∀ w ∈ l ++ [v], p w := by
  simpa [or_imp, forall_and] using ⟨hl, hv⟩

theorem traced_narrow {s : State} (hs : s.Narrow) : s.traced.Narrow := by
  simpa only [State.Narrow, traced_cfg, traced_regs, traced_pc, traced_stack, traced_outs] using hs

/-- An instruction keeps the values narrow where its ip_after_decode is at most 32768, as after a fetch. -/
theorem exec_narrow {i : Instr} {s t : State} (hip : (s.ipAfter i.length).toNat ≤ 32768) (hs : s.Narrow)
    (h : exec i s = .next t) : t.Narrow := by
  intro hc
  rw [exec_cfg h] at hc
  obtain ⟨hregs, hpc, hstack, houts⟩ := hs hc
  cases exec_effect h with
  | write _ _ hv => exact ⟨regs_set_lt hregs (lt_of_mayWrite hc hv) _, hip, hstack, houts⟩
  | skip | store => exact ⟨hregs, hip, hstack, houts⟩
  | jump _ hdst => exact ⟨hregs, Nat.le_of_lt (resolve_lt_of_regs hregs hdst), hstack, houts⟩
  | push _ hv => exact ⟨hregs, hip, forall_mem_concat hstack (Nat.le_of_lt (resolve_lt_of_regs hregs hv)), houts⟩
  | call _ hdst => exact ⟨hregs, Nat.le_of_lt (resolve_lt_of_regs hregs hdst), forall_mem_concat hstack hip, houts⟩
  | pop _ _ hst hv =>
    exact ⟨regs_set_lt hregs (lt_of_mayWrite hc hv) _, hip, (stack_split_le hstack hst).1, houts⟩
  | ret _ hst => exact ⟨hregs, (stack_split_le hstack hst).2, (stack_split_le hstack hst).1, houts⟩
  | emit _ hv => exact ⟨hregs, hip, hstack, forall_mem_concat houts (resolve_lt_of_regs hregs hv)⟩
  | @take _ _ b =>
    have hb : (zext16 b).toNat < 32768 := by rw [zext16_toNat]; exact Nat.lt_trans b.isLt (by decide)
    exact ⟨regs_set_lt hregs hb _, hip, hstack, houts⟩
  | fault | wait | inputExhausted | retEmpty | haltInstr => exact ⟨hregs, hpc, hstack, houts⟩

/-! ## Canonical memory -/

theorem exec_wf {i : Instr} {s t : State} (hs : s.mem.wf = true) (h : exec i s = .next t) : t.mem.wf = true := by
  cases exec_effect h with
  | store _ _ _ hlt => exact wf_writeWord _ hs hlt
  | _ => exact hs

theorem step_wf {s t : State} (hs : s.mem.wf = true) (h : step s = .next t) : t.mem.wf = true :=
  step_preserves (P := fun u => u.mem.wf = true) (fun hs => by rwa [traced_mem]) (fun _ _ hs => hs)
    (fun _ _ _ hs h => exec_wf hs h) hs h

/-! ## The status record -/

theorem faultRecordExact_of_not_faulted {s : State} (h : s.status.runState ≠ .faulted) :
    s.faultRecordExact = true := by
  simp [State.faultRecordExact, h]

/-- A fault's entry is what its own record says. -/
@[simp] theorem faulted_faultRecordExact (kind : FaultKind) (s : State) :
    (s.faulted kind).faultRecordExact = true := by
  simp [State.faultRecordExact, State.faulted]

@[simp] theorem traced_faultRecordExact (s : State) : s.traced.faultRecordExact = s.faultRecordExact := by
  unfold State.traced; split <;> rfl

/-- A coherent record has a halt reason in HALTED only, a fault kind in FAULTED, and elsewhere no fault. -/
theorem coherent_iff (r : Status) :
    r.coherent = true ↔ (r.haltReason = none ↔ r.runState ≠ .halted) ∧
      (r.runState = .faulted → r.faultKind ≠ none) ∧ (r.runState ≠ .faulted → r.noFault = true) := by
  unfold Status.coherent
  cases r.runState <;> simp [Option.isSome_iff_ne_none]

/-- HALT_REASON is NONE in RUNNING, and a fault leaves it so (R211). -/
theorem faulted_coherent {s : State} (kind : FaultKind) (hrun : s.status.runState = .running)
    (hs : s.status.coherent = true) : (s.faulted kind).status.coherent = true := by
  obtain ⟨hreason, -, -⟩ := (coherent_iff _).mp hs
  simpa [coherent_iff, hrun] using hreason

/-- The entries of a halt and of a wait, and the host's run and supply_line, write two fields of the record: the other
fields are as created, and stay so. -/
theorem coherent_update {r : Status} {run : RunState} {reason : Option HaltReason} (hr : r.coherent = true)
    (hnow : r.runState ≠ .faulted) (hrun : run ≠ .faulted) (hreason : reason = none ↔ run ≠ .halted) :
    Status.coherent { r with runState := run, haltReason := reason } = true := by
  obtain ⟨-, -, hnone⟩ := (coherent_iff _).mp hr
  exact (coherent_iff _).mpr ⟨hreason, fun h => absurd h hrun, fun _ => hnone hnow⟩

theorem haltReason_eq_none {r : Status} (hr : r.coherent = true) (h : r.runState ≠ .halted) : r.haltReason = none :=
  ((coherent_iff _).mp hr).1.mpr h

theorem exec_coherent {i : Instr} {s t : State} (hrun : s.status.runState = .running)
    (hs : s.status.coherent = true) (h : exec i s = .next t) :
    t.status.coherent = true ∧ t.faultRecordExact = true := by
  have hnow : s.status.runState ≠ .faulted := by simp [hrun]
  cases exec_effect h with
  | fault kind => exact ⟨faulted_coherent kind hrun hs, faulted_faultRecordExact kind s⟩
  | wait =>
    have hreason : s.status.haltReason = none := haltReason_eq_none hs (by simp [hrun])
    exact ⟨coherent_update hs hnow (by simp) (by simp [hreason]), faultRecordExact_of_not_faulted (by simp)⟩
  | inputExhausted | retEmpty | haltInstr =>
    exact ⟨coherent_update hs hnow (by simp) (by simp), faultRecordExact_of_not_faulted (by simp)⟩
  | _ => exact ⟨hs, faultRecordExact_of_not_faulted hnow⟩

/-! ## The bounded stack -/

theorem withinCapacity_iff (s : State) :
    s.withinCapacity = true ↔ ∀ cap, s.cfg.stackCapacity = some cap → s.stack.length ≤ cap := by
  unfold State.withinCapacity
  split <;> simp [*]

/-- A stack that is not full has room for one more entry. -/
theorem length_lt_of_not_full {s : State} {cap : Nat} (hs : s.stack.length ≤ cap) (hf : s.stackFull = false)
    (hc : s.cfg.stackCapacity = some cap) : s.stack.length < cap := by
  refine Nat.lt_of_le_of_ne hs fun e => ?_
  rw [(stackFull_iff s).mpr (hc.trans (congrArg some e.symm))] at hf
  cases hf

theorem exec_withinCapacity {i : Instr} {s t : State} (hs : s.withinCapacity = true) (h : exec i s = .next t) :
    t.withinCapacity = true := by
  rw [withinCapacity_iff] at hs ⊢
  intro cap hc
  rw [exec_cfg h] at hc
  have hle := hs cap hc
  cases exec_effect h with
  | push _ _ hf | call _ _ hf => simpa [Nat.succ_le_iff] using length_lt_of_not_full hle hf hc
  | pop _ _ hst | ret _ hst =>
    rw [hst, List.length_append] at hle
    exact Nat.le_of_add_right_le hle
  | _ => exact hle

end Sys2Proof.Machine

open Sys2Proof Sys2Proof.Machine

/-- Settles O41: the values an instruction stores are resolved, guarded or popped ones, and the new pc is one of these
or ip_after_decode of an instruction inside memory. -/
theorem valuesStayNarrow : Obligations.ValuesStayNarrow := by
  intro s t hs h
  refine step_preserves (P := State.Narrow) traced_narrow (fun _ _ hs => hs) (fun i _ hd hs h => ?_) hs h
  exact exec_narrow (by rw [ipAfter_traced]; exact ipAfter_le_of_fetched hd) hs h

/-- Settles O42: a RUNNING record is as created, and each of the three entries writes what its RUN_STATE asks for. -/
theorem statusStaysCoherent : Obligations.StatusStaysCoherent := by
  intro s t hs hexact h
  exact step_preserves (P := fun u => u.status.coherent = true ∧ u.faultRecordExact = true)
    (fun hs => by rwa [traced_status, traced_faultRecordExact])
    (fun kind hrun ⟨hs, _⟩ => ⟨faulted_coherent kind hrun hs, faulted_faultRecordExact kind s⟩)
    (fun i hrun _ ⟨hs, _⟩ h => exec_coherent (by rwa [traced_status]) hs h) ⟨hs, hexact⟩ h

/-- Settles O43: push and call store only on a stack that is not full. -/
theorem stackStaysWithinCapacity : Obligations.StackStaysWithinCapacity := by
  intro s t hs h
  refine step_preserves (P := fun u => u.withinCapacity = true) (fun hs => ?_) (fun _ _ hs => hs)
    (fun _ _ _ hs h => exec_withinCapacity hs h) hs h
  simpa only [withinCapacity_iff, traced_cfg, traced_stack] using hs

end

section
/-! PROOFS. The whole invariant: a step, a host transaction and boot (spec 10_state.md R39; 70_reset_and_hazards.md
R240, R241, R250). -/

namespace Sys2Proof.Machine

/-- A booted machine is a created one that holds the image in canonical form. -/
theorem boot_ok {cfg : Config} {image : List Byte} {s : State} (h : boot cfg image = .ok s) :
    image.length ≤ 65536 ∧ s = (State.create cfg).setMem (Memory.ofImage 0 image) := by
  unfold boot at h
  split at h
  · cases h
  · split at h
    · cases h
    · cases h
      exact ⟨by omega, rfl⟩

/-- A created machine meets the invariant whatever canonical memory it is given. -/
theorem create_setMem_inv (cfg : Config) {m : Memory} (hm : m.wf = true) : ((State.create cfg).setMem m).Inv where
  memory := hm
  narrow := fun _ =>
    ⟨fun i => by simp [State.create], Nat.zero_le _, fun _ h => absurd h List.not_mem_nil,
      fun _ h => absurd h List.not_mem_nil⟩
  status := rfl
  record := rfl
  capacity := (withinCapacity_iff _).mpr fun cap _ => Nat.zero_le cap

theorem boot_inv {cfg : Config} {image : List Byte} {s : State} (h : boot cfg image = .ok s) : s.Inv := by
  obtain ⟨hlen, rfl⟩ := boot_ok h
  exact create_setMem_inv cfg (wfFrom_ofImage image 0 (by omega))

theorem step_inv {s t : State} (hs : s.Inv) (h : step s = .next t) : t.Inv := by
  obtain ⟨hmem, hnarrow, hstatus, hrecord, hcap⟩ := hs
  obtain ⟨hstatus', hrecord'⟩ := statusStaysCoherent s t hstatus hrecord h
  exact ⟨step_wf hmem h, valuesStayNarrow s t hnarrow h, hstatus', hrecord', stackStaysWithinCapacity s t hcap h⟩

/-- The host writes the streams, which only clear_output can shrink, and RUN_STATE on the way to RUNNING. -/
theorem hostMove_inv {m : HostMove} {s t : State} (hs : s.Inv) (h : hostMove m s = .ok t) : t.Inv := by
  obtain ⟨hmem, hnarrow, hstatus, hrecord, hcap⟩ := hs
  rcases hostMove_ok h with ⟨hnow, rfl | ⟨q, rfl⟩ | rfl⟩ | ⟨hnow, bytes, -, rfl⟩
  · have hne : s.status.runState ≠ .faulted := by rcases hnow with hnow | hnow <;> simp [hnow]
    exact ⟨hmem, hnarrow, coherent_update hstatus hne (by simp) (by simp),
      faultRecordExact_of_not_faulted (by simp), hcap⟩
  · exact ⟨hmem, hnarrow, hstatus, hrecord, hcap⟩
  · refine ⟨hmem, fun hc => ?_, hstatus, hrecord, hcap⟩
    obtain ⟨hregs, hpc, hstack, -⟩ := hnarrow hc
    exact ⟨hregs, hpc, hstack, fun _ h => absurd h List.not_mem_nil⟩
  · have hreason : s.status.haltReason = none := haltReason_eq_none hstatus (by simp [hnow])
    exact ⟨hmem, hnarrow, coherent_update hstatus (by simp [hnow]) (by simp) (by simp [hreason]),
      faultRecordExact_of_not_faulted (by simp), hcap⟩

theorem reachable_inv {s : State} (h : Reachable s) : s.Inv := by
  induction h with
  | boot h => exact boot_inv h
  | step _ h ih => exact step_inv ih h
  | host m _ h ih => exact hostMove_inv ih h

end Sys2Proof.Machine

open Sys2Proof Sys2Proof.Machine

/-- Settles O45, by induction on how the state is reached. -/
theorem reachableStatesKeepTheInvariant : Obligations.ReachableStatesKeepTheInvariant := by
  refine ⟨fun s t hs h => ?_, fun cfg image s h => boot_inv h, fun s h => reachable_inv h⟩
  rcases h with h | ⟨m, h⟩
  · exact step_inv hs h
  · exact hostMove_inv hs h

end

section
/-! PROOFS. TRACE has no effect on semantics (spec 10_state.md R37; 60_exceptions.md R230): every operation commutes
with switching the flag and putting earlier events before those of the state. -/

namespace Sys2Proof.Machine

/-- The state with TRACE as given. -/
def State.setTrace (flag : Bool) (s : State) : State := { s with cfg := { s.cfg with trace := flag } }

/-- The state with TRACE as given, and with the events `pre` before its own. -/
def State.logged (flag : Bool) (pre : List Event) (s : State) : State :=
  { s.setTrace flag with events := pre ++ s.events }

/-- A function of the next state, on a result. -/
def mapNext (f : State → State) : Result → Result
  | .next s => .next (f s)
  | .fault r => .fault r
  | .refused r => .refused r

theorem mapNext_eq_next_iff (f : State → State) (r : Result) (t : State) :
    mapNext f r = .next t ↔ ∃ s, r = .next s ∧ f s = t := by
  cases r <;> simp [mapNext]

theorem mapNext_eq_fault_iff (f : State → State) (r : Result) (e : Fault) : mapNext f r = .fault e ↔ r = .fault e := by
  cases r <;> simp [mapNext]

section Commuting

variable {flag : Bool} {pre : List Event}

theorem resolve_logged (a : Arg) (s : State) : resolve a (s.logged flag pre) = resolve a s := resolve_congr a rfl

theorem withValue_logged {a : Arg} {s : State} {k k' : Word → Result}
    (hk : ∀ v, k' v = mapNext (State.logged flag pre) (k v)) :
    withValue a (s.logged flag pre) k' = mapNext (State.logged flag pre) (withValue a s k) := by
  unfold withValue
  rw [resolve_logged]
  split
  · rfl
  · exact hk _

theorem withTarget_logged {a : Arg} {s : State} {k k' : Reg → Result}
    (hk : ∀ i, k' i = mapNext (State.logged flag pre) (k i)) :
    withTarget a (s.logged flag pre) k' = mapNext (State.logged flag pre) (withTarget a s k) := by
  unfold withTarget
  split
  · rfl
  · exact hk _

theorem withWriteGuard_logged {v : Word} {s : State} {k k' : Result}
    (hk : k' = mapNext (State.logged flag pre) k) :
    withWriteGuard v (s.logged flag pre) k' = mapNext (State.logged flag pre) (withWriteGuard v s k) := by
  have hg : (s.logged flag pre).mayWrite v = s.mayWrite v := rfl
  unfold withWriteGuard
  rw [hg]
  split
  · exact hk
  · rfl

theorem retireReg_logged (i : Reg) (v : Word) (n : Nat) (s : State) :
    retireReg i v n (s.logged flag pre) = mapNext (State.logged flag pre) (retireReg i v n s) :=
  withWriteGuard_logged rfl

theorem withPushed_logged {v : Word} {s : State} {k k' : State → Result}
    (hk : ∀ u, k' (State.logged flag pre u) = mapNext (State.logged flag pre) (k u)) :
    withPushed v (s.logged flag pre) k' = mapNext (State.logged flag pre) (withPushed v s k) := by
  have hf : (s.logged flag pre).stackFull = s.stackFull := rfl
  unfold withPushed
  rw [hf]
  split
  · rfl
  · exact hk (s.setStack (s.stack ++ [v]))

theorem withPopped_logged {s : State} {r r' : Result} {k k' : Word → State → Result}
    (hr : r' = mapNext (State.logged flag pre) r)
    (hk : ∀ v u, k' v (State.logged flag pre u) = mapNext (State.logged flag pre) (k v u)) :
    withPopped (s.logged flag pre) r' k' = mapNext (State.logged flag pre) (withPopped s r k) := by
  have hst : (s.logged flag pre).stack = s.stack := rfl
  unfold withPopped
  rw [hst]
  split
  · exact hr
  · exact hk _ (s.setStack s.stack.dropLast)

theorem withMemRead_logged {addr : Word} {s : State} {k k' : Word → Result}
    (hk : ∀ v, k' v = mapNext (State.logged flag pre) (k v)) :
    withMemRead addr (s.logged flag pre) k' = mapNext (State.logged flag pre) (withMemRead addr s k) := by
  have hm : (s.logged flag pre).mem = s.mem := rfl
  unfold withMemRead
  rw [hm]
  split
  · rfl
  · exact hk _

theorem withMemWrite_logged {addr v : Word} {s : State} {k k' : State → Result}
    (hk : ∀ u, k' (State.logged flag pre u) = mapNext (State.logged flag pre) (k u)) :
    withMemWrite addr v (s.logged flag pre) k' = mapNext (State.logged flag pre) (withMemWrite addr v s k) := by
  have hm : (s.logged flag pre).mem = s.mem := rfl
  unfold withMemWrite
  rw [hm]
  split
  next => rfl
  next m _ => exact hk (s.setMem m)

theorem emit_logged (v : Word) (s : State) : (s.logged flag pre).emit v = (s.emit v).logged flag pre := by
  simp [State.emit, State.logged, State.setTrace]

theorem binaryToReg_logged (f : Word → Word → Word) (a b c : Arg) (s : State) :
    binaryToReg f a b c (s.logged flag pre) = mapNext (State.logged flag pre) (binaryToReg f a b c s) :=
  withTarget_logged fun _ => withValue_logged fun _ => withValue_logged fun _ => retireReg_logged ..

theorem unaryToReg_logged (f : Word → Word) (a b : Arg) (s : State) :
    unaryToReg f a b (s.logged flag pre) = mapNext (State.logged flag pre) (unaryToReg f a b s) :=
  withTarget_logged fun _ => withValue_logged fun _ => retireReg_logged ..

theorem branch_logged (test : Word → Bool) (a b : Arg) (s : State) :
    branch test a b (s.logged flag pre) = mapNext (State.logged flag pre) (branch test a b s) :=
  withValue_logged fun _ => withValue_logged fun _ => by split <;> rfl

theorem execRet_logged (s : State) :
    execRet (s.logged flag pre) = mapNext (State.logged flag pre) (execRet s) := by
  unfold execRet
  exact withPopped_logged rfl fun _ _ => rfl

/-- No instruction reads TRACE or the events. -/
theorem exec_logged (i : Instr) (s : State) :
    exec i (s.logged flag pre) = mapNext (State.logged flag pre) (exec i s) := by
  cases i with
  | halt | noop => rfl
  | eq a b c | gt a b c | add a b c | mul a b c | and a b c | or a b c => exact binaryToReg_logged _ a b c s
  | set a b | not a b => exact unaryToReg_logged _ a b s
  | jt a b | jf a b => exact branch_logged _ a b s
  | jmp a => exact withValue_logged fun _ => rfl
  | push a | call a => exact withValue_logged fun _ => withPushed_logged fun _ => rfl
  | pop a => exact withTarget_logged fun _ => withPopped_logged rfl fun _ _ => withWriteGuard_logged rfl
  | ret => exact execRet_logged s
  | mod a b c =>
    refine withTarget_logged fun i => withValue_logged fun u => withValue_logged fun w => ?_
    split
    · rfl
    · exact retireReg_logged ..
  | rmem a b =>
    exact withTarget_logged fun _ => withValue_logged fun _ => withMemRead_logged fun _ => retireReg_logged ..
  | wmem a b => exact withValue_logged fun _ => withValue_logged fun _ => withMemWrite_logged fun _ => rfl
  | out a => exact withValue_logged fun v => by rw [emit_logged]; rfl
  | input a =>
    refine withTarget_logged fun i => ?_
    have hq : (s.logged flag pre).inq = s.inq := rfl
    have hc : (s.logged flag pre).cfg.interactive = s.cfg.interactive := rfl
    rw [hq, hc]
    split
    · split <;> rfl
    · rfl

end Commuting

theorem setTrace_eq_logged (flag : Bool) (s : State) :
    s.setTrace flag = State.logged flag s.events { s with events := [] } := by
  simp [State.logged, State.setTrace]

/-- The stage of the trace event, as an event put before those of the instruction. -/
theorem traced_setTrace (flag : Bool) (s : State) :
    (s.setTrace flag).traced = State.logged flag (s.setTrace flag).traced.events { s with events := [] } := by
  unfold State.traced
  split <;> simp [State.logged, State.setTrace]

theorem traced_setTrace_echoes (flag : Bool) (s : State) :
    (s.setTrace flag).traced.events.filter Event.isEcho = s.events.filter Event.isEcho := by
  rw [traced_events]
  split <;> simp [State.setTrace, Event.isEcho]

/-- At either value of TRACE the running step is one result, with the same echoes before it. -/
theorem stepRunning_setTrace (s : State) :
    ∃ r : Result, ∀ flag, ∃ pre : List Event, pre.filter Event.isEcho = s.events.filter Event.isEcho ∧
      stepRunning (s.setTrace flag) = mapNext (State.logged flag pre) r := by
  have hw (flag : Bool) : fetchWindow (s.setTrace flag) = fetchWindow s := rfl
  unfold stepRunning
  simp only [hw]
  cases decode (fetchWindow s) with
  | ok i =>
    refine ⟨exec i { s with events := [] }, fun flag => ⟨_, traced_setTrace_echoes flag s, ?_⟩⟩
    rw [← exec_logged, ← traced_setTrace]
  | error e =>
    refine ⟨raise (fetchFault e) { s with events := [] }, fun flag => ⟨s.events, rfl, ?_⟩⟩
    rw [setTrace_eq_logged]
    rfl

theorem step_setTrace (s : State) :
    ∃ r : Result, ∀ flag, ∃ pre : List Event, pre.filter Event.isEcho = s.events.filter Event.isEcho ∧
      step (s.setTrace flag) = mapNext (State.logged flag pre) r := by
  have hrun (flag : Bool) : (s.setTrace flag).status.runState = s.status.runState := rfl
  unfold step
  simp only [hrun]
  cases s.status.runState with
  | running => exact stepRunning_setTrace s
  | loaded | waitInput | halted | faulted => exact ⟨.fault _, fun _ => ⟨s.events, rfl, rfl⟩⟩

end Sys2Proof.Machine

open Sys2Proof Sys2Proof.Machine

/-- Settles O46: both steps are one result, taken with other events before it. -/
theorem traceHasNoEffect : Obligations.TraceHasNoEffect := by
  intro s flag
  obtain ⟨r, hr⟩ := step_setTrace s
  obtain ⟨pre, hpre, hstep⟩ : ∃ pre, pre.filter Event.isEcho = s.events.filter Event.isEcho ∧
      step s = mapNext (State.logged s.cfg.trace pre) r := hr s.cfg.trace
  obtain ⟨pre', hpre', hstep'⟩ := hr flag
  constructor
  · intro f h
    rw [hstep, mapNext_eq_fault_iff] at h
    subst h
    exact hstep'
  · intro t h
    rw [hstep, mapNext_eq_next_iff] at h
    obtain ⟨u, rfl, rfl⟩ := h
    refine ⟨u.logged flag pre', hstep', rfl, ?_⟩
    simp [State.logged, hpre, hpre']

end

section
/-! PROOFS. The host's transactions and the codes of the status record (spec 10_state.md R31 to R33, R39;
48_io_system.md R204 to R206). -/

namespace Sys2Proof.Machine

theorem betweenRuns_of_allowed {s : State} (h : s.status.runState = .loaded ∨ s.status.runState = .halted)
    (t : State) : betweenRuns s t = .ok t := by
  rcases h with h | h <;> simp [betweenRuns, RunState.betweenRuns, h]

theorem betweenRuns_of_not_allowed {s : State} (hl : s.status.runState ≠ .loaded) (hh : s.status.runState ≠ .halted)
    (t : State) : betweenRuns s t = .error (.notAllowedIn s.status.runState) := by
  have hb : s.status.runState.betweenRuns = false := by
    revert hl hh
    cases s.status.runState <;> simp [RunState.betweenRuns]
  simp [betweenRuns, hb]

end Sys2Proof.Machine

open Sys2Proof Sys2Proof.Machine

/-- Settles O58: four transactions are `betweenRuns`, and supply_line and read_output look at RUN_STATE themselves. -/
theorem hostTransactionsFollowTheTable : Obligations.HostTransactionsFollowTheTable := by
  intro s bytes
  refine ⟨fun h => ?_, fun hl hh => ?_, fun h hb => ?_, fun h => ?_, fun h => ?_, fun h => ?_, fun h => ?_⟩
  · exact ⟨betweenRuns_of_allowed h _, betweenRuns_of_allowed h _, betweenRuns_of_allowed h _,
      betweenRuns_of_allowed h _⟩
  · have hno := betweenRuns_of_not_allowed hl hh
    simpa only [List.forall_mem_cons] using ⟨hno _, hno _, hno _, hno _, List.forall_mem_nil _⟩
  · simp [hostMove, hostSupplyLine, h, hb, State.setInq, State.resume]
  · simp [hostMove, hostSupplyLine, h]
  · simp [hostMove, hostSupplyLine, h]
  · rcases h with h | h | h <;> simp [readOutput, h]
  · rcases h with h | h <;> simp [readOutput, h]

/-- Settles O59, transaction by transaction. -/
theorem hostTouchesOnlyTheStreams : Obligations.HostTouchesOnlyTheStreams := by
  intro m s t h
  rcases hostMove_ok h with ⟨-, rfl | ⟨q, rfl⟩ | rfl⟩ | ⟨-, bytes, -, rfl⟩ <;>
    exact ⟨rfl, rfl, rfl, fun _ => rfl, rfl, _, _, rfl⟩

/-- Settles O60: the codes by computation, read_status by its one test. -/
theorem statusReadsInItsCodes : Obligations.StatusReadsInItsCodes :=
  ⟨rfl, rfl, rfl, fun _ => ⟨fun h => if_pos h, fun h => if_neg h⟩⟩

end

section
/-! PROOFS. Memory (spec 20_memory.md R51, R53, R63, R64): its canonical form, its frame, and the fetch that reads what
stands in it, whoever wrote it. The decoder reads an encoding back from any longer sequence of Words (30_encoding.md
R71, R77). -/

namespace Sys2Proof

/-! ## The decoder on the Words of an encoding -/

theorem decodeF1_toWord {a : Arg} (ha : a.wellFormed = true) (mk : Arg → Instr) (op : Word) (ws : List Word) :
    decodeF1 mk op (a.toWord :: ws) = .ok (mk a) := by
  rw [decodeF1, ofWord_toWord a ha]

theorem decodeF2_toWord {a b : Arg} (h : (a.wellFormed && b.wellFormed) = true) (mk : Arg → Arg → Instr) (op : Word)
    (ws : List Word) : decodeF2 mk op (a.toWord :: b.toWord :: ws) = .ok (mk a b) := by
  obtain ⟨ha, hb⟩ := Bool.and_eq_true_iff.mp h
  rw [decodeF2, ofWord_toWord a ha, ofWord_toWord b hb]

theorem decodeF3_toWord {a b c : Arg} (h : (a.wellFormed && b.wellFormed && c.wellFormed) = true)
    (mk : Arg → Arg → Arg → Instr) (op : Word) (ws : List Word) :
    decodeF3 mk op (a.toWord :: b.toWord :: c.toWord :: ws) = .ok (mk a b c) := by
  obtain ⟨hab, hc⟩ := Bool.and_eq_true_iff.mp h
  obtain ⟨ha, hb⟩ := Bool.and_eq_true_iff.mp hab
  rw [decodeF3, ofWord_toWord a ha, ofWord_toWord b hb, ofWord_toWord c hc]

/-- Format by format: the opcode Word selects the constructor, and each operand Word gives back its argument. -/
theorem decode_encode_append {i : Instr} (h : i.wellFormed = true) (ws : List Word) :
    decode (encode i ++ ws) = .ok i := by
  cases i with
  | halt | ret | noop => rfl
  | push a | pop a | jmp a | call a | out a | input a => simp [encode, decode, decodeF1_toWord h]
  | set a b | jt a b | jf a b | not a b | rmem a b | wmem a b => simp [encode, decode, decodeF2_toWord h]
  | eq a b c | gt a b c | add a b c | mul a b c | mod a b c | and a b c | or a b c =>
    simp [encode, decode, decodeF3_toWord h]

theorem encode_length (i : Instr) : (encode i).length = i.length := by
  cases i <;> rfl

end Sys2Proof

namespace Sys2Proof.Machine

/-! ## The fetch -/

/-- Each Word that the fetch reads is the Word of memory at its own address. -/
theorem fetchWindow_getElem? (s : State) {k : Nat} (hk : k < 4) (hpc : s.pc.toNat + k < 32768) :
    (fetchWindow s)[k]? = some (s.mem.readWord (s.pc.toNat + k)) :=
  (window_getElem? s.mem 4 s.pc.toNat k).trans (if_pos ⟨hk, hpc⟩)

theorem step_of_decode {s : State} {i : Instr} (hrun : s.status.runState = .running)
    (hd : decode (fetchWindow s) = .ok i) : step s = exec i s.traced := by
  rw [step_of_running hrun, stepRunning, hd]

/-- An encoding that stands in memory at pc is where the fetch window begins. -/
theorem encode_prefix_fetchWindow {s : State} {i : Instr} (hfit : s.pc.toNat + i.length ≤ 32768)
    (hmem : ∀ (k : Nat) (w : Word), (encode i)[k]? = some w → s.mem.readWord (s.pc.toNat + k) = w) :
    encode i <+: fetchWindow s := by
  rw [List.prefix_iff_getElem?]
  intro k hk
  have hlen : k < i.length := encode_length i ▸ hk
  have hfour := (length_pos_le_four i).2
  rw [fetchWindow_getElem? s (by omega) (by omega), hmem k _ (List.getElem?_eq_getElem hk)]

/-! ## The completion of wmem -/

theorem exec_wmem_of_resolve {a b : Arg} {s : State} {addr v : Word} (ha : resolve a s = some addr)
    (hb : resolve b s = some v) (hlt : addr.toNat < 32768) :
    exec (.wmem a b) s = .next ((s.setMem (s.mem.writeWord addr.toNat v)).advance 3) := by
  have hw : s.mem.memWrite addr v = some (s.mem.writeWord addr.toNat v) :=
    (memWrite_eq_some_iff ..).mpr ⟨hlt, rfl⟩
  change execWmem a b s = _
  rw [execWmem, withValue_some ha, withValue_some hb, withMemWrite, hw]

end Sys2Proof.Machine

open Sys2Proof Sys2Proof.Machine

/-- Settles O40: a fetch that faults and every instruction but wmem leave memory alone, and a store of a Word inside
memory keeps the form. -/
theorem memoryStaysCanonical : Obligations.MemoryStaysCanonical :=
  fun _ _ hs h => step_wf hs h

/-- Settles O29: the fetch window begins with the encoding, which decodes to the instruction whatever follows it. -/
theorem stepRunsTheStoredInstruction : Obligations.StepRunsTheStoredInstruction := by
  intro s i hrun hwf hfit hmem
  obtain ⟨ws, hws⟩ := encode_prefix_fetchWindow hfit hmem
  exact step_of_decode hrun (hws ▸ decode_encode_append hwf ws)

/-- Settles O35: the one effect that writes memory is wmem's store, of the two bytes of the Word it addresses. -/
theorem onlyWmemChangesMemory : Obligations.OnlyWmemChangesMemory := by
  intro i s t h
  cases exec_effect h with
  | store hi ha =>
    refine ⟨fun hn => absurd hi (hn _ _), fun a b addr hi' ha' k hlow hhigh => ?_⟩
    cases hi.symm.trans hi'
    cases ha.symm.trans ha'
    rw [advance_mem, setMem_mem, readByte_writeWord, if_neg hhigh, if_neg hlow]
  | _ => exact ⟨fun _ _ => rfl, fun _ _ _ _ _ _ _ _ => rfl⟩

/-- Settles O50: the fetch reads the memory that the store left, and a read after a write is the value at its
address. -/
theorem nextFetchSeesTheWrite : Obligations.NextFetchSeesTheWrite := by
  intro a b s t addr v ha hb hlt h k hk hpc
  cases (exec_wmem_of_resolve ha hb hlt).symm.trans h
  rw [fetchWindow_getElem? _ hk hpc, advance_mem, setMem_mem, readWord_writeWord]

end

section
/-! PROOFS. The decoder (spec 30_encoding.md R70 to R73, R77, R78): it reads an instruction from exactly the sequences
of Words that begin with the instruction's encoding, and rejects a Word as an opcode exactly if it is above 21. -/

namespace Sys2Proof

/-! ## What is decoded begins with its encoding -/

theorem decodeF1_encode {mk : Arg → Instr} {op : Word} {n : Nat} {ws : List Word} {i : Instr} (hop : op.toNat = n)
    (hwf : ∀ a, (mk a).wellFormed = a.wellFormed) (henc : ∀ a, encode (mk a) = [BitVec.ofNat 16 n, a.toWord])
    (h : decodeF1 mk op ws = .ok i) : i.wellFormed = true ∧ encode i <+: op :: ws := by
  obtain ⟨a, r, rfl, rfl⟩ := decodeF1_ok h
  subst hop
  simp [hwf, henc, wellFormed_ofWord, toWord_ofWord]

theorem decodeF2_encode {mk : Arg → Arg → Instr} {op : Word} {n : Nat} {ws : List Word} {i : Instr}
    (hop : op.toNat = n) (hwf : ∀ a b, (mk a b).wellFormed = (a.wellFormed && b.wellFormed))
    (henc : ∀ a b, encode (mk a b) = [BitVec.ofNat 16 n, a.toWord, b.toWord])
    (h : decodeF2 mk op ws = .ok i) : i.wellFormed = true ∧ encode i <+: op :: ws := by
  obtain ⟨a, b, r, rfl, rfl⟩ := decodeF2_ok h
  subst hop
  simp [hwf, henc, wellFormed_ofWord, toWord_ofWord]

theorem decodeF3_encode {mk : Arg → Arg → Arg → Instr} {op : Word} {n : Nat} {ws : List Word} {i : Instr}
    (hop : op.toNat = n) (hwf : ∀ a b c, (mk a b c).wellFormed = (a.wellFormed && b.wellFormed && c.wellFormed))
    (henc : ∀ a b c, encode (mk a b c) = [BitVec.ofNat 16 n, a.toWord, b.toWord, c.toWord])
    (h : decodeF3 mk op ws = .ok i) : i.wellFormed = true ∧ encode i <+: op :: ws := by
  obtain ⟨a, b, c, r, rfl, rfl⟩ := decodeF3_ok h
  subst hop
  simp [hwf, henc, wellFormed_ofWord, toWord_ofWord]

/-- An instruction of one Word: the opcode is its whole encoding. -/
theorem encode_prefix_of_opcode {op : Word} {n : Nat} {i : Instr} (hop : op.toNat = n)
    (henc : encode i = [BitVec.ofNat 16 n]) (ws : List Word) : encode i <+: op :: ws := by
  subst hop
  simp [henc]

/-- The cases are the rows of the opcode map, from opcode 0 on. -/
theorem encode_prefix_of_decode {ws : List Word} {i : Instr} (h : decode ws = .ok i) :
    i.wellFormed = true ∧ encode i <+: ws := by
  cases ws with
  | nil => cases h
  | cons op ws =>
    simp only [decode] at h
    split at h
    case h_1 hop | h_19 hop | h_22 hop => cases h; exact ⟨rfl, encode_prefix_of_opcode hop rfl ws⟩
    case h_3 hop | h_4 hop | h_7 hop | h_18 hop | h_20 hop | h_21 hop =>
      exact decodeF1_encode hop (fun _ => rfl) (fun _ => rfl) h
    case h_2 hop | h_8 hop | h_9 hop | h_15 hop | h_16 hop | h_17 hop =>
      exact decodeF2_encode hop (fun _ _ => rfl) (fun _ _ => rfl) h
    case h_5 hop | h_6 hop | h_10 hop | h_11 hop | h_12 hop | h_13 hop | h_14 hop =>
      exact decodeF3_encode hop (fun _ _ _ => rfl) (fun _ _ _ => rfl) h
    case h_23 => cases h

/-- The decoder, whole: which Words it reads as which instruction. -/
theorem decode_eq_ok_iff (ws : List Word) (i : Instr) :
    decode ws = .ok i ↔ i.wellFormed = true ∧ encode i <+: ws := by
  constructor
  · exact encode_prefix_of_decode
  · rintro ⟨hwf, rest, rfl⟩
    exact decode_encode_append hwf rest

/-! ## Unknown opcodes -/

theorem decodeF1_ne_unknownOpcode (mk : Arg → Instr) (op op' : Word) (ws : List Word) :
    decodeF1 mk op ws ≠ .error (.unknownOpcode op') := by
  unfold decodeF1; split <;> simp

theorem decodeF2_ne_unknownOpcode (mk : Arg → Arg → Instr) (op op' : Word) (ws : List Word) :
    decodeF2 mk op ws ≠ .error (.unknownOpcode op') := by
  unfold decodeF2; split <;> simp

theorem decodeF3_ne_unknownOpcode (mk : Arg → Arg → Arg → Instr) (op op' : Word) (ws : List Word) :
    decodeF3 mk op ws ≠ .error (.unknownOpcode op') := by
  unfold decodeF3; split <;> simp

/-- No row of the opcode map answers `unknownOpcode`, a missing operand Word included, and the rows are 0 to 21. -/
theorem decode_eq_unknownOpcode_iff (op : Word) (ws : List Word) :
    decode (op :: ws) = .error (.unknownOpcode op) ↔ 21 < op.toNat := by
  simp only [decode]
  split
  case h_1 hop | h_19 hop | h_22 hop => simp [hop]
  case h_3 hop | h_4 hop | h_7 hop | h_18 hop | h_20 hop | h_21 hop => simp [hop, decodeF1_ne_unknownOpcode]
  case h_2 hop | h_8 hop | h_9 hop | h_15 hop | h_16 hop | h_17 hop => simp [hop, decodeF2_ne_unknownOpcode]
  case h_5 hop | h_6 hop | h_10 hop | h_11 hop | h_12 hop | h_13 hop | h_14 hop =>
    simp [hop, decodeF3_ne_unknownOpcode]
  case h_23 =>
    refine iff_of_true rfl ?_
    simp only [imp_false] at *
    omega

end Sys2Proof

namespace Sys2Proof.Machine

theorem step_of_decode_error {s : State} {e : DecodeError} (hrun : s.status.runState = .running)
    (hd : decode (fetchWindow s) = .error e) : step s = .next (s.faulted (fetchFault e)) := by
  rw [step_of_running hrun, stepRunning, hd]
  rfl

/-- A fault's entry at an address inside memory, where the opcode Word is recorded (R211). -/
theorem faulted_of_pc_lt (kind : FaultKind) {s : State} (hpc : s.pc.toNat < 32768) :
    s.faulted kind = { s with status :=
      { s.status with
        runState := .faulted, faultKind := some kind, faultAddr := s.pc
        faultOpcode := s.mem.readWord s.pc.toNat, faultOpcodeValid := true } } := by
  simp [State.faulted, hpc]

end Sys2Proof.Machine

open Sys2Proof Sys2Proof.Machine

/-- Settles O1: the Words begin with the encoding. -/
theorem decodeReadsBackEncode : Obligations.DecodeReadsBackEncode := by
  intro i rest hwf
  exact (decode_eq_ok_iff _ _).mpr ⟨hwf, List.prefix_append _ rest⟩

/-- Settles O2: the encoding is a prefix of the Words, and as long as the instruction. -/
theorem encodeReadsBackDecode : Obligations.EncodeReadsBackDecode := by
  intro ws i h
  obtain ⟨hwf, hpre⟩ := (decode_eq_ok_iff ws i).mp h
  exact ⟨hwf, encode_length i ▸ hpre.length_le, encode_length i ▸ List.prefix_iff_eq_take.mp hpre⟩

/-- Settles O3: the fetch window of a pc inside memory begins with the opcode Word, and the decoder rejects that Word
whatever follows it. -/
theorem illegalOpcodesFault : Obligations.IllegalOpcodesFault := by
  refine ⟨decode_eq_unknownOpcode_iff, fun s hrun hpc hop => ?_⟩
  obtain ⟨ws, hws⟩ := fetchWindow_head hpc
  have hd : decode (fetchWindow s) = .error (.unknownOpcode (s.mem.readWord s.pc.toNat)) :=
    hws ▸ (decode_eq_unknownOpcode_iff _ ws).mpr hop
  rw [step_of_decode_error hrun hd, fetchFault, faulted_of_pc_lt .unknownOpcode hpc]

/-- Settles O5, by computation. -/
theorem sampleWordsDecode : Obligations.SampleWordsDecode :=
  ⟨rfl, rfl, rfl, rfl, rfl, rfl, rfl, rfl, rfl⟩

end

section
/-! PROOFS. Every operand of an instruction is resolved before anything else is done (spec 40_execution.md R98; the
spec's D4, D8, D9). -/

namespace Sys2Proof.Machine

/-- If a destination operand or a later one does not resolve, and `k` faults whenever a later one does not, then the
whole faults. -/
theorem withTarget_unresolved {a : Arg} {os : List Operand} {s : State} {k : Reg → Result}
    (h : (Operand.dest a :: os).all (Operand.resolves s) = false)
    (hk : ∀ r, os.all (Operand.resolves s) = false → k r = raise .invalidOperand s) :
    withTarget a s k = raise .invalidOperand s := by
  cases ha : target a with
  | none => exact withTarget_none ha s k
  | some r =>
    rw [withTarget_some ha]
    exact hk r (by simpa [Operand.resolves, ha] using h)

/-- The same for a value operand. -/
theorem withValue_unresolved {a : Arg} {os : List Operand} {s : State} {k : Word → Result}
    (h : (Operand.value a :: os).all (Operand.resolves s) = false)
    (hk : ∀ v, os.all (Operand.resolves s) = false → k v = raise .invalidOperand s) :
    withValue a s k = raise .invalidOperand s := by
  cases ha : resolve a s with
  | none => exact withValue_none ha k
  | some v =>
    rw [withValue_some ha]
    exact hk v (by simpa [Operand.resolves, ha] using h)

/-- With no operand left, none is unresolved. -/
theorem no_operand_unresolved {s : State} {r : Result} (h : [].all (Operand.resolves s) = false) :
    r = raise .invalidOperand s :=
  Bool.noConfusion h

end Sys2Proof.Machine

open Sys2Proof Sys2Proof.Machine

/-- Settles O7, by the rows of R76's table: each instruction resolves its operands first, in the order and of the kinds
of its row. -/
theorem unresolvedOperandFaults : Obligations.UnresolvedOperandFaults := by
  intro i s h
  cases i with
  | halt | ret | noop => exact no_operand_unresolved h
  | push a | jmp a | call a | out a => exact withValue_unresolved h fun _ => no_operand_unresolved
  | pop a | input a => exact withTarget_unresolved h fun _ => no_operand_unresolved
  | set a b | not a b | rmem a b =>
    exact withTarget_unresolved h fun _ h => withValue_unresolved h fun _ => no_operand_unresolved
  | jt a b | jf a b | wmem a b =>
    exact withValue_unresolved h fun _ h => withValue_unresolved h fun _ => no_operand_unresolved
  | eq a b c | gt a b c | add a b c | mul a b c | mod a b c | and a b c | or a b c =>
    exact withTarget_unresolved h fun _ h => withValue_unresolved h fun _ h => withValue_unresolved h fun _ =>
      no_operand_unresolved

end

section
/-! PROOFS. The step (spec 40_execution.md R90 to R101): the readings of an Argument Word and its resolution, the fetch
that runs outside memory, and the outcomes of a step. -/

namespace Sys2Proof

theorem ofWord_of_reg_index {a : Word} {i : Reg} (h : a.toNat = 32768 + i.val) : Arg.ofWord a = .reg i := by
  have := i.isLt
  rw [ofWord_of_reg (by omega) (by omega), ofNat_val_sub i _ h]

/-! ## An encoding that is cut short -/

theorem decodeF1_of_short {mk : Arg → Instr} {op : Word} {ws : List Word} (h : ws.length < 1) :
    decodeF1 mk op ws = .error (.operandMissing op) := by
  match ws, h with
  | [], _ => rfl

theorem decodeF2_of_short {mk : Arg → Arg → Instr} {op : Word} {ws : List Word} (h : ws.length < 2) :
    decodeF2 mk op ws = .error (.operandMissing op) := by
  match ws, h with
  | [], _ | [_], _ => rfl

theorem decodeF3_of_short {mk : Arg → Arg → Arg → Instr} {op : Word} {ws : List Word} (h : ws.length < 3) :
    decodeF3 mk op ws = .error (.operandMissing op) := by
  match ws, h with
  | [], _ | [_], _ | [_, _], _ => rfl

/-- A legal opcode with fewer Words after it than its format has: a legal opcode is the first Word of some encoding. -/
theorem decode_of_short {i : Instr} {op : Word} {ws : List Word} (hop : (encode i).head? = some op)
    (h : ws.length + 1 < i.length) : decode (op :: ws) = .error (.operandMissing op) := by
  have hlt : ws.length < i.length - 1 := Nat.lt_sub_of_add_lt h
  cases i with
  | halt | ret | noop => exact absurd hlt (Nat.not_lt_zero _)
  | push a | pop a | jmp a | call a | out a | input a => cases hop; exact decodeF1_of_short hlt
  | set a b | jt a b | jf a b | not a b | rmem a b | wmem a b => cases hop; exact decodeF2_of_short hlt
  | eq a b c | gt a b c | add a b c | mul a b c | mod a b c | and a b c | or a b c =>
    cases hop; exact decodeF3_of_short hlt

end Sys2Proof

namespace Sys2Proof.Machine

/-! ## The resolution of an Argument Word -/

/-- A literal's value is the Word it was read from. -/
theorem resolve_ofWord_of_lt {a : Word} (h : a.toNat < 32768) (s : State) : resolve (.ofWord a) s = some a := by
  have hw := toWord_ofWord a
  rw [ofWord_of_lt h] at hw ⊢
  exact congrArg some hw

theorem resolve_ofWord_of_reg {a : Word} {i : Reg} (h : a.toNat = 32768 + i.val) (s : State) :
    resolve (.ofWord a) s = some s.regs[i] := by
  rw [ofWord_of_reg_index h]; rfl

theorem resolve_ofWord_of_ge {a : Word} (h : 32776 ≤ a.toNat) (s : State) : resolve (.ofWord a) s = none := by
  rw [ofWord_of_ge h]; rfl

theorem target_ofWord_of_lt {a : Word} (h : a.toNat < 32768) : target (.ofWord a) = none := by
  rw [ofWord_of_lt h]; rfl

theorem target_ofWord_of_reg {a : Word} {i : Reg} (h : a.toNat = 32768 + i.val) : target (.ofWord a) = some i := by
  rw [ofWord_of_reg_index h]; rfl

theorem target_ofWord_of_ge {a : Word} (h : 32776 ≤ a.toNat) : target (.ofWord a) = none := by
  rw [ofWord_of_ge h]; rfl

/-- A destination that `target` has an answer for is a register. -/
theorem target_eq_some_iff (a : Arg) (r : Reg) : target a = some r ↔ a = .reg r := by
  cases a <;> simp

/-! ## The fetch that runs outside memory -/

theorem fetchWindow_of_pc_ge {s : State} (h : 32768 ≤ s.pc.toNat) : fetchWindow s = [] := by
  apply List.eq_nil_of_length_eq_zero
  rw [fetchWindow_length]
  omega

/-- The window of a pc inside memory that is too short for the instruction of its opcode has lost an operand Word. -/
theorem decode_fetchWindow_of_cut {s : State} {i : Instr} (hpc : s.pc.toNat < 32768)
    (hop : (encode i).head? = some (s.mem.readWord s.pc.toNat)) (hcut : 32768 < s.pc.toNat + i.length) :
    decode (fetchWindow s) = .error (.operandMissing (s.mem.readWord s.pc.toNat)) := by
  obtain ⟨ws, hws⟩ := fetchWindow_head hpc
  have hlen := fetchWindow_length s
  rw [hws, List.length_cons] at hlen
  rw [hws]
  exact decode_of_short hop (by omega)

/-- A fault's entry at an address outside memory, where there is no opcode Word to record (R211). -/
theorem faulted_of_pc_ge (kind : FaultKind) {s : State} (hpc : 32768 ≤ s.pc.toNat) :
    s.faulted kind = { s with status :=
      { s.status with
        runState := .faulted, faultKind := some kind, faultAddr := s.pc
        faultOpcode := 0, faultOpcodeValid := false } } := by
  simp [State.faulted, Nat.not_lt.mpr hpc]

/-! ## Every instruction answers a next state -/

/-- The result is a next state: the machine neither stops nor refuses. -/
abbrev Answers (r : Result) : Prop := ∃ t, r = .next t

theorem withValue_answers {a : Arg} {s : State} {k : Word → Result} (hk : ∀ v, Answers (k v)) :
    Answers (withValue a s k) := by
  unfold withValue
  split
  · exact ⟨_, rfl⟩
  · exact hk _

theorem withTarget_answers {a : Arg} {s : State} {k : Reg → Result} (hk : ∀ r, Answers (k r)) :
    Answers (withTarget a s k) := by
  unfold withTarget
  split
  · exact ⟨_, rfl⟩
  · exact hk _

theorem withWriteGuard_answers {v : Word} {s : State} {k : Result} (hk : Answers k) :
    Answers (withWriteGuard v s k) := by
  unfold withWriteGuard
  split
  · exact hk
  · exact ⟨_, rfl⟩

theorem retireReg_answers (r : Reg) (v : Word) (n : Nat) (s : State) : Answers (retireReg r v n s) :=
  withWriteGuard_answers ⟨_, rfl⟩

theorem withPushed_answers {v : Word} {s : State} {k : State → Result} (hk : ∀ u, Answers (k u)) :
    Answers (withPushed v s k) := by
  unfold withPushed
  split
  · exact ⟨_, rfl⟩
  · exact hk _

theorem withPopped_answers {s : State} {r : Result} {k : Word → State → Result} (hr : Answers r)
    (hk : ∀ v u, Answers (k v u)) : Answers (withPopped s r k) := by
  unfold withPopped
  split
  · exact hr
  · exact hk _ _

theorem withMemRead_answers {addr : Word} {s : State} {k : Word → Result} (hk : ∀ v, Answers (k v)) :
    Answers (withMemRead addr s k) := by
  unfold withMemRead
  split
  · exact ⟨_, rfl⟩
  · exact hk _

theorem withMemWrite_answers {addr v : Word} {s : State} {k : State → Result} (hk : ∀ u, Answers (k u)) :
    Answers (withMemWrite addr v s k) := by
  unfold withMemWrite
  split
  · exact ⟨_, rfl⟩
  · exact hk _

/-- Every check an instruction makes ends in a fault's entry, which is a next state, or goes on. -/
theorem exec_answers (i : Instr) (s : State) : Answers (exec i s) := by
  cases i with
  | halt | noop => exact ⟨_, rfl⟩
  | ret => exact withPopped_answers ⟨_, rfl⟩ fun _ _ => ⟨_, rfl⟩
  | jmp a | out a => exact withValue_answers fun _ => ⟨_, rfl⟩
  | push a | call a => exact withValue_answers fun _ => withPushed_answers fun _ => ⟨_, rfl⟩
  | pop a =>
    exact withTarget_answers fun _ => withPopped_answers ⟨_, rfl⟩ fun _ _ => withWriteGuard_answers ⟨_, rfl⟩
  | input a =>
    refine withTarget_answers fun _ => ?_
    split <;> exact ⟨_, rfl⟩
  | jt a b | jf a b => exact withValue_answers fun _ => withValue_answers fun _ => ⟨_, rfl⟩
  | set a b | not a b => exact withTarget_answers fun _ => withValue_answers fun _ => retireReg_answers ..
  | rmem a b =>
    exact withTarget_answers fun _ => withValue_answers fun _ => withMemRead_answers fun _ => retireReg_answers ..
  | wmem a b =>
    exact withValue_answers fun _ => withValue_answers fun _ => withMemWrite_answers fun _ => ⟨_, rfl⟩
  | mod a b c =>
    refine withTarget_answers fun _ => withValue_answers fun _ => withValue_answers fun _ => ?_
    split
    · exact ⟨_, rfl⟩
    · exact retireReg_answers ..
  | eq a b c | gt a b c | add a b c | mul a b c | and a b c | or a b c =>
    exact withTarget_answers fun _ => withValue_answers fun _ => withValue_answers fun _ => retireReg_answers ..

theorem stepRunning_answers (s : State) : Answers (stepRunning s) := by
  unfold stepRunning
  split
  · exact exec_answers _ _
  · exact ⟨_, rfl⟩

/-! ## The outcomes of an instruction -/

/-- An instruction that does not fault has resolved every operand (R98). -/
theorem operandsResolve_of_not_faulted {i : Instr} {s t : State} (h : exec i s = .next t)
    (ht : t.status.runState ≠ .faulted) : operandsResolve i s = true := by
  cases hr : operandsResolve i s with
  | true => rfl
  | false =>
    cases (unresolvedOperandFaults i s hr).symm.trans h
    exact absurd rfl ht

/-- An instruction completes and leaves the status record alone, or faults for a cause, or halts for one of the three
reasons of R33, or waits. -/
theorem exec_outcome {i : Instr} {s t : State} (hs : s.status.runState ≠ .faulted) (h : exec i s = .next t) :
    (operandsResolve i s = true ∧ t.status = s.status) ∨ Caused i s t ∨
      (i = .halt ∧ t = s.halted .haltInstr) ∨ (i = .ret ∧ s.stack = [] ∧ t = s.halted .retEmpty) ∨
      ∃ r : Reg, i = .input (.reg r) ∧ s.inq = [] ∧
        t = if s.cfg.interactive then s.waiting else s.halted .inputExhausted := by
  cases exec_effect h with
  | fault kind => exact .inr (.inl (exec_faulted hs rfl h))
  | haltInstr hi => exact .inr (.inr (.inl ⟨hi, rfl⟩))
  | retEmpty hi hst => exact .inr (.inr (.inr (.inl ⟨hi, hst, rfl⟩)))
  | @wait a r hi hr hq hc | @inputExhausted a r hi hr hq hc =>
    exact .inr (.inr (.inr (.inr ⟨r, (target_eq_some_iff a r).mp hr ▸ hi, hq, by simp [hc]⟩)))
  | _ => exact .inl ⟨operandsResolve_of_not_faulted h hs, rfl⟩

/-! ## What the trace event leaves alone -/

theorem operandsResolve_traced (i : Instr) (s : State) : operandsResolve i s.traced = operandsResolve i s := by
  unfold State.traced; split <;> rfl

/-- The causes of a fault lie in registers, stack, memory and configuration. -/
theorem faultCause_traced (i : Instr) (s : State) (kind : FaultKind) :
    FaultCause i s.traced kind = FaultCause i s kind := by
  unfold State.traced; split <;> rfl

end Sys2Proof.Machine

open Sys2Proof Sys2Proof.Machine

/-- Settles O31: the window is empty, or it is too short for the instruction of its opcode. -/
theorem fetchOutsideMemoryFaults : Obligations.FetchOutsideMemoryFaults := by
  refine fun s hrun => ⟨fun hpc => ?_, fun i hpc hop hcut => ?_⟩
  · have hd : decode (fetchWindow s) = .error .noOpcode := by rw [fetchWindow_of_pc_ge hpc]; rfl
    rw [step_of_decode_error hrun hd, fetchFault, faulted_of_pc_ge .addressOutOfRange hpc]
  · rw [step_of_decode_error hrun (decode_fetchWindow_of_cut hpc hop hcut), fetchFault,
      faulted_of_pc_lt .addressOutOfRange hpc]

/-- Settles O32: in RUNNING a fetch that faults and every instruction answer a next state. -/
theorem stepsExactlyWhenRunning : Obligations.StepsExactlyWhenRunning := by
  refine fun s => ⟨fun h => step_of_running h ▸ stepRunning_answers s, ?_⟩
  refine ⟨fun h => ?_, fun h => ?_, fun h => ?_, fun h => ?_⟩ <;> rw [step, h]

/-- Settles O33: the fetch faults, or the decoded instruction has one of its outcomes on the traced state. -/
theorem stepHasOneOfFourOutcomes : Obligations.StepHasOneOfFourOutcomes := by
  intro s t h
  obtain ⟨hrun, ⟨i, hd, h⟩ | ⟨e, hd, ht⟩⟩ := step_next h
  · have hs : s.traced.status.runState ≠ .faulted := by simp [hrun]
    rcases exec_outcome hs h with ⟨hr, ht⟩ | ⟨kind, ht, hc⟩ | ⟨rfl, ht⟩ | ⟨rfl, hst, ht⟩ | ⟨r, rfl, hq, ht⟩
    · exact .inl ⟨i, hd, operandsResolve_traced i s ▸ hr, h, ht.trans (traced_status s)⟩
    · exact .inr (.inr (.inl ⟨i, kind, hd, faultCause_traced i s kind ▸ hc, ht⟩))
    · exact .inr (.inr (.inr (.inl ⟨hd, ht⟩)))
    · exact .inr (.inr (.inr (.inr (.inl ⟨hd, traced_stack s ▸ hst, ht⟩))))
    · exact .inr (.inr (.inr (.inr (.inr ⟨r, hd, traced_inq s ▸ hq, traced_cfg s ▸ ht⟩))))
  · exact .inr (.inl ⟨e, hd, ht⟩)

/-- Settles O38, effect by effect: an effect that leaves RUNNING keeps pc, and the others but the control transfers
advance it. -/
theorem onlyControlTransfersSetThePc : Obligations.OnlyControlTransfersSetThePc := by
  intro i s t hrun h
  cases exec_effect h with
  | fault | wait | inputExhausted | retEmpty | haltInstr => exact ⟨fun _ => rfl, fun ht => nomatch ht⟩
  | jump hi =>
    refine ⟨fun ht => absurd hrun ht, fun _ hn _ => ?_⟩
    rcases hi with hi | ⟨c, hi | hi⟩
    · exact absurd hi (hn _ (.lit 0)).1
    · exact absurd hi (hn c _).2.1
    · exact absurd hi (hn c _).2.2.1
  | call hi => exact ⟨fun ht => absurd hrun ht, fun _ hn _ => absurd hi (hn _ (.lit 0)).2.2.2⟩
  | ret hi => exact ⟨fun ht => absurd hrun ht, fun _ _ hn => absurd hi hn⟩
  | _ => exact ⟨fun ht => absurd hrun ht, fun _ _ _ => rfl⟩

/-- Settles O4, range by range. -/
theorem argumentWordsAreClassified : Obligations.ArgumentWordsAreClassified := by
  refine fun a => ⟨fun h => ⟨a.setWidth 15, ?_, ofWord_of_lt h⟩, fun i h => ofWord_of_reg_index h, ofWord_of_ge⟩
  rw [BitVec.toNat_setWidth]
  omega

/-- Settles O6: what `resolve` and `target` answer for the Word in each of its three ranges. (Named apart from the
model's own `operandsResolve`.) -/
theorem operandsResolveHolds : Obligations.OperandsResolve := by
  refine fun a s => ⟨fun k => ⟨fun h => ?_, fun i h => ?_, fun h => ?_⟩,
    fun k => ⟨fun h => ?_, fun i h => ?_, fun h => ?_, fun hs hc v hv => ?_⟩⟩
  · exact withValue_some (resolve_ofWord_of_lt h s) k
  · exact withValue_some (resolve_ofWord_of_reg h s) k
  · exact withValue_none (resolve_ofWord_of_ge h s) k
  · exact withTarget_none (target_ofWord_of_lt h) s k
  · exact withTarget_some (target_ofWord_of_reg h) s k
  · exact withTarget_none (target_ofWord_of_ge h) s k
  · exact resolve_lt_of_regs (hs hc).1 hv

/-- Settles O28: the state with the event appended is the traced state. -/
theorem stepRunsTheDecodedInstruction : Obligations.StepRunsTheDecodedInstruction :=
  fun _ _ hrun hd => step_of_decode hrun hd

end

section
/-! PROOFS. set, push and pop (spec 41_register_stack.md): the write guard and the push as their checks decide them,
and each instruction's answer once its operands are resolved. -/

namespace Sys2Proof.Machine

/-! ## The checks -/

theorem withWriteGuard_of_mayWrite {s : State} {v : Word} (h : s.mayWrite v = true) (k : Result) :
    withWriteGuard v s k = k :=
  if_pos h

/-- The guard of R23 stops a Word above 32767 under REG_HIGH_WRITE = fault. -/
theorem withWriteGuard_of_high {s : State} {v : Word} (hv : 32768 ≤ v.toNat) (hf : s.cfg.regHighWrite = .fault)
    (k : Result) : withWriteGuard v s k = raise .invalidRegisterValue s :=
  if_neg fun h => Nat.not_lt.mpr hv (lt_of_mayWrite hf h)

theorem withPushed_of_room {s : State} (h : s.cfg.stackCapacity ≠ some s.stack.length) (v : Word)
    (k : State → Result) : withPushed v s k = k (s.setStack (s.stack ++ [v])) :=
  if_neg (mt (stackFull_iff s).mp h)

theorem withPushed_of_full {s : State} (h : s.cfg.stackCapacity = some s.stack.length) (v : Word)
    (k : State → Result) : withPushed v s k = raise .stackOverflow s :=
  if_pos ((stackFull_iff s).mpr h)

/-! ## The instructions, their operands resolved -/

theorem exec_set_of_resolve {a b : Arg} {s : State} {i : Reg} {v : Word} (ha : target a = some i)
    (hb : resolve b s = some v) : exec (.set a b) s = retireReg i v 3 s := by
  change execSet a b s = _
  rw [execSet, unaryToReg, withTarget_some ha, withValue_some hb]

theorem exec_push_of_resolve {a : Arg} {s : State} {v : Word} (ha : resolve a s = some v) :
    exec (.push a) s = withPushed v s fun s' => .next (s'.advance 2) := by
  change execPush a s = _
  rw [execPush, withValue_some ha]

theorem exec_pop_of_target {a : Arg} {s : State} {i : Reg} (ha : target a = some i) :
    exec (.pop a) s = withPopped s (raise .stackUnderflow s) fun v s' =>
      withWriteGuard v s (.next ((s'.setReg i v).advance 2)) := by
  change execPop a s = _
  rw [execPop, withTarget_some ha]

/-- One operand without an answer is enough for the fault of R98. -/
theorem exec_of_unresolved {i : Instr} {s : State} (o : Operand) (ho : o ∈ operands i) (h : o.resolves s = false) :
    exec i s = .next (s.faulted .invalidOperand) :=
  unresolvedOperandFaults i s (operandsResolve_false ho h)

theorem dest_not_resolves {a : Arg} (h : target a = none) (s : State) : (Operand.dest a).resolves s = false := by
  simp [Operand.resolves, h]

theorem value_not_resolves {a : Arg} {s : State} (h : resolve a s = none) : (Operand.value a).resolves s = false := by
  simp [Operand.resolves, h]

end Sys2Proof.Machine

open Sys2Proof Sys2Proof.Machine

/-- Settles O9: the operands resolve and the guard decides, or one of them does not resolve. A value operand is narrow
where the registers are. -/
theorem setCopiesAValue : Obligations.SetCopiesAValue := by
  refine fun a b s => ⟨rfl, fun i v ha hb => ⟨fun hv => ?_, fun hv hf => ?_⟩, fun h => ?_, fun hs hc v hv => ?_⟩
  · rw [exec_set_of_resolve ha hb, retireReg_of_mayWrite ((mayWrite_iff s v).mpr hv)]
    rfl
  · rw [exec_set_of_resolve ha hb, retireReg, withWriteGuard_of_high hv hf]
    rfl
  · rcases h with ha | hb
    · exact exec_of_unresolved (.dest a) (by simp [operands]) (dest_not_resolves ha s)
    · exact exec_of_unresolved (.value b) (by simp [operands]) (value_not_resolves hb)
  · obtain ⟨hregs, -⟩ := hs hc
    exact resolve_lt_of_regs hregs hv

/-- Settles O10: the stack has room for the value, or it is full. -/
theorem pushAppendsToTheStack : Obligations.PushAppendsToTheStack := by
  refine fun a s => ⟨rfl, fun v ha => ⟨fun hroom => ?_, fun hfull => ?_⟩, fun ha => ?_⟩
  · rw [exec_push_of_resolve ha, withPushed_of_room hroom]
    rfl
  · rw [exec_push_of_resolve ha, withPushed_of_full hfull]
    rfl
  · exact exec_of_unresolved (.value a) (by simp [operands]) (value_not_resolves ha)

/-- Settles O11: the stack has a top, which the guard lets through or stops, or it is empty. -/
theorem popTakesTheTop : Obligations.PopTakesTheTop := by
  refine fun a s => ⟨rfl, fun i st v ha hst => ⟨fun hv => ?_, fun hv hf => ?_⟩, fun i ha hst => ?_, fun ha => ?_⟩
  · rw [exec_pop_of_target ha, withPopped_concat hst, withWriteGuard_of_mayWrite ((mayWrite_iff s v).mpr hv)]
    rfl
  · rw [exec_pop_of_target ha, withPopped_concat hst, withWriteGuard_of_high hv hf]
    rfl
  · rw [exec_pop_of_target ha, withPopped_nil hst]
    rfl
  · exact exec_of_unresolved (.dest a) (by simp [operands]) (dest_not_resolves ha s)

/-- Settles O49: the value pushed is the top of the stack that the pop finds, and push keeps the configuration that
the guard reads. -/
theorem popReadsBackPush : Obligations.PopReadsBackPush := by
  intro a d i v s ha hd hroom hv
  obtain ⟨-, hpush, -⟩ := pushAppendsToTheStack a s
  obtain ⟨hcomplete, -⟩ := hpush v ha
  obtain ⟨-, hpop, -⟩ := popTakesTheTop d { s with stack := s.stack ++ [v], pc := s.pc + 2 }
  obtain ⟨hread, -⟩ := hpop i s.stack v hd rfl
  exact ⟨_, hcomplete hroom, hread hv⟩

end

section
/-! PROOFS. eq and gt (spec 42_compare.md): the answer of an instruction with a destination and two values, once its
operands are resolved and when one of them is not. -/

namespace Sys2Proof.Machine

theorem binaryToReg_of_resolve {a b c : Arg} {s : State} {i : Reg} {u w : Word} (ha : target a = some i)
    (hb : resolve b s = some u) (hc : resolve c s = some w) (f : Word → Word → Word) :
    binaryToReg f a b c s = retireReg i (f u w) 4 s := by
  rw [binaryToReg, withTarget_some ha, withValue_some hb, withValue_some hc]

/-- A result in V15 passes the guard of R23 under either REG_HIGH_WRITE. -/
theorem binaryToReg_of_lt {a b c : Arg} {s : State} {i : Reg} {u w : Word} {f : Word → Word → Word}
    (ha : target a = some i) (hb : resolve b s = some u) (hc : resolve c s = some w) (hf : (f u w).toNat < 32768) :
    binaryToReg f a b c s = .next ((s.setReg i (f u w)).advance 4) := by
  rw [binaryToReg_of_resolve ha hb hc, retireReg_of_mayWrite (mayWrite_of_lt hf)]

/-- R98 for the operand kinds D, V, V of R76. -/
theorem exec_of_unresolved_dvv {j : Instr} {a b c : Arg} {s : State}
    (hj : operands j = [.dest a, .value b, .value c])
    (h : target a = none ∨ resolve b s = none ∨ resolve c s = none) :
    exec j s = .next (s.faulted .invalidOperand) := by
  rcases h with ha | hb | hc
  · exact exec_of_unresolved (.dest a) (by simp [hj]) (dest_not_resolves ha s)
  · exact exec_of_unresolved (.value b) (by simp [hj]) (value_not_resolves hb)
  · exact exec_of_unresolved (.value c) (by simp [hj]) (value_not_resolves hc)

end Sys2Proof.Machine

open Sys2Proof Sys2Proof.Machine

/-- Settles O12: the operands resolve and the result, 0 or 1, passes the guard, or one of them does not resolve. -/
theorem eqAndGtWriteOneOrZero : Obligations.EqAndGtWriteOneOrZero := by
  refine fun a b c s => ⟨rfl, rfl, fun i u w ha hb hc => ⟨?_, ?_⟩, fun h => ⟨?_, ?_⟩⟩
  · exact binaryToReg_of_lt ha hb hc (eqResult_lt u w)
  · exact binaryToReg_of_lt ha hb hc (gtResult_lt u w)
  · exact exec_of_unresolved_dvv rfl h
  · exact exec_of_unresolved_dvv rfl h

end

section
/-! PROOFS. jmp, jt and jf (spec 43_branch.md): each instruction's answer once its operands are resolved, and the fault
of an instruction with two values when one of them is not. -/

namespace Sys2Proof.Machine

theorem exec_jmp_of_resolve {a : Arg} {s : State} {t : Word} (ha : resolve a s = some t) :
    exec (.jmp a) s = .next (s.jumpTo t) :=
  withValue_some ha _

/-- Taken or not, the branch only sets pc. -/
theorem branch_of_resolve {a b : Arg} {s : State} {u t : Word} (ha : resolve a s = some u)
    (hb : resolve b s = some t) (test : Word → Bool) :
    branch test a b s = .next (s.jumpTo (if test u then t else s.ipAfter 3)) := by
  rw [branch, withValue_some ha, withValue_some hb]
  cases test u <;> rfl

theorem exec_jt_of_resolve {a b : Arg} {s : State} {u t : Word} (ha : resolve a s = some u)
    (hb : resolve b s = some t) : exec (.jt a b) s = .next (s.jumpTo (if u = 0 then s.ipAfter 3 else t)) := by
  have hbranch : exec (.jt a b) s = _ := branch_of_resolve ha hb isNonzero
  by_cases hu : u = 0 <;> simpa [isNonzero, hu] using hbranch

theorem exec_jf_of_resolve {a b : Arg} {s : State} {u t : Word} (ha : resolve a s = some u)
    (hb : resolve b s = some t) : exec (.jf a b) s = .next (s.jumpTo (if u = 0 then t else s.ipAfter 3)) := by
  have hbranch : exec (.jf a b) s = _ := branch_of_resolve ha hb isZero
  by_cases hu : u = 0 <;> simpa [isZero, hu] using hbranch

/-- R98 for the operand kinds V, V of R76. -/
theorem exec_of_unresolved_vv {j : Instr} {a b : Arg} {s : State} (hj : operands j = [.value a, .value b])
    (h : resolve a s = none ∨ resolve b s = none) : exec j s = .next (s.faulted .invalidOperand) := by
  rcases h with ha | hb
  · exact exec_of_unresolved (.value a) (by simp [hj]) (value_not_resolves ha)
  · exact exec_of_unresolved (.value b) (by simp [hj]) (value_not_resolves hb)

end Sys2Proof.Machine

open Sys2Proof Sys2Proof.Machine

/-- Settles O13: the target resolves, or it does not. -/
theorem jmpSetsThePc : Obligations.JmpSetsThePc := by
  refine fun a s => ⟨rfl, fun t ha => exec_jmp_of_resolve ha, fun ha => ?_⟩
  exact exec_of_unresolved (.value a) (by simp [operands]) (value_not_resolves ha)

/-- Settles O14: both operands resolve and the condition chooses between the target and the next instruction, or one of
them does not resolve, taken or not (D9). -/
theorem branchesTestForZero : Obligations.BranchesTestForZero := by
  refine fun a b s => ⟨rfl, rfl, fun u t ha hb => ⟨?_, ?_⟩, fun h => ⟨?_, ?_⟩⟩
  · exact exec_jt_of_resolve ha hb
  · exact exec_jf_of_resolve ha hb
  · exact exec_of_unresolved_vv rfl h
  · exact exec_of_unresolved_vv rfl h

end

section
/-! PROOFS. add, mul and mod (spec 44_arithmetic.md): the two readings of a product modulo 32768, and mod's answer once
its operands are resolved, by the divisor and by the guard. -/

namespace Sys2Proof.Machine

/-- R105: a product wrapped to 16 bits keeps its residue, since 32768 divides 65536. -/
theorem toNat_mul_mod_32768 (u w : Word) : (u * w).toNat % 32768 = u.toNat * w.toNat % 32768 := by
  rw [BitVec.toNat_mul, Nat.mod_mod_of_dvd _ (by decide)]

/-- R106: a remainder is no greater than the dividend, so a Word holds it. -/
theorem mod15_toNat (u w : Word) : (mod15 u w).toNat = u.toNat % w.toNat := by
  have hlt : u.toNat % w.toNat < 2 ^ 16 := Nat.lt_of_le_of_lt (Nat.mod_le _ _) u.isLt
  rw [mod15, BitVec.toNat_ofNat, Nat.mod_eq_of_lt hlt]

theorem retireReg_of_high {s : State} {v : Word} (hv : 32768 ≤ v.toNat) (hf : s.cfg.regHighWrite = .fault) (i : Reg)
    (n : Nat) : retireReg i v n s = .next (s.faulted .invalidRegisterValue) :=
  withWriteGuard_of_high hv hf _

theorem exec_mod_of_resolve {a b c : Arg} {s : State} {i : Reg} {u w : Word} (ha : target a = some i)
    (hb : resolve b s = some u) (hc : resolve c s = some w) :
    exec (.mod a b c) s = if w = 0 then raise .divideByZero s else retireReg i (mod15 u w) 4 s := by
  change execMod a b c s = _
  rw [execMod, withTarget_some ha, withValue_some hb, withValue_some hc]

end Sys2Proof.Machine

open Sys2Proof Sys2Proof.Machine

/-- Settles O15: the operands resolve and the reduced sum passes the guard, or one of them does not resolve. -/
theorem addIsModulo32768 : Obligations.AddIsModulo32768 :=
  fun _ _ _ _ => ⟨rfl, fun _ u w ha hb hc => binaryToReg_of_lt ha hb hc (add15_lt u w), exec_of_unresolved_dvv rfl⟩

/-- Settles O16: the operands resolve and the reduced product passes the guard, or one of them does not resolve. -/
theorem mulIsModulo32768 : Obligations.MulIsModulo32768 := by
  refine fun a b c s => ⟨rfl, fun i u w ha hb hc => ⟨?_, ?_⟩, exec_of_unresolved_dvv rfl⟩
  · exact binaryToReg_of_lt ha hb hc (mul15_lt u w)
  · exact toNat_mul_mod_32768 u w

/-- Settles O17: the divisor is 0 (D5), or the guard lets the remainder through or stops it (D6), or an operand does
not resolve. -/
theorem modIsTheRemainder : Obligations.ModIsTheRemainder := by
  refine fun a b c s =>
    ⟨rfl, fun i u w ha hb hc => ⟨fun hw => ?_, fun hw hv => ?_, fun hw hv hf => ?_⟩, exec_of_unresolved_dvv rfl⟩
  · rw [exec_mod_of_resolve ha hb hc, if_pos hw]
    rfl
  · rw [← mod15_toNat] at hv
    rw [exec_mod_of_resolve ha hb hc, if_neg hw, retireReg_of_mayWrite ((mayWrite_iff s _).mpr hv)]
    rfl
  · rw [← mod15_toNat] at hv
    rw [exec_mod_of_resolve ha hb hc, if_neg hw, retireReg_of_high hv hf]

end

section
/-! PROOFS. and, or and not (spec 45_bitwise.md): V15 is closed under the bitwise operations, the answer of an
instruction with a destination and two values by the guard, and not's answer once its operands are resolved. -/

namespace Sys2Proof.Machine

/-- R107: a conjunction is no greater than either operand. -/
theorem toNat_and_lt {u : Word} (hu : u.toNat < 32768) (w : Word) : (u &&& w).toNat < 32768 := by
  rw [BitVec.toNat_and]
  exact Nat.lt_of_le_of_lt Nat.and_le_left hu

/-- R107: bit 15 of a disjunction is clear when it is clear in both operands. -/
theorem toNat_or_lt {u w : Word} (hu : u.toNat < 32768) (hw : w.toNat < 32768) : (u ||| w).toNat < 32768 := by
  rw [BitVec.toNat_or]
  exact Nat.or_lt_two_pow (n := 15) hu hw

/-- R107: the mask keeps the low 15 bits, and the complement of a Word is 65535 minus it. -/
theorem not15_toNat {u : Word} (hu : u.toNat < 32768) : (not15 u).toNat = 32767 - u.toNat := by
  have hmask : (not15 u).toNat = (~~~u).toNat % 2 ^ 15 := Nat.and_two_pow_sub_one_eq_mod _ 15
  rw [hmask, BitVec.toNat_not]
  omega

theorem binaryToReg_of_mayWrite {a b c : Arg} {s : State} {i : Reg} {u w : Word} {f : Word → Word → Word}
    (ha : target a = some i) (hb : resolve b s = some u) (hc : resolve c s = some w) (hf : s.mayWrite (f u w) = true) :
    binaryToReg f a b c s = .next ((s.setReg i (f u w)).advance 4) := by
  rw [binaryToReg_of_resolve ha hb hc, retireReg_of_mayWrite hf]

theorem binaryToReg_of_high {a b c : Arg} {s : State} {i : Reg} {u w : Word} {f : Word → Word → Word}
    (ha : target a = some i) (hb : resolve b s = some u) (hc : resolve c s = some w) (hv : 32768 ≤ (f u w).toNat)
    (hf : s.cfg.regHighWrite = .fault) : binaryToReg f a b c s = .next (s.faulted .invalidRegisterValue) := by
  rw [binaryToReg_of_resolve ha hb hc, retireReg_of_high hv hf]

theorem exec_not_of_resolve {a b : Arg} {s : State} {i : Reg} {u : Word} (ha : target a = some i)
    (hb : resolve b s = some u) : exec (.not a b) s = .next ((s.setReg i (not15 u)).advance 3) := by
  change execNot a b s = _
  rw [execNot, unaryToReg, withTarget_some ha, withValue_some hb, retireReg_of_mayWrite (mayWrite_of_lt (not15_lt u))]

/-- R98 for the operand kinds D, V of R76. -/
theorem exec_of_unresolved_dv {j : Instr} {a b : Arg} {s : State} (hj : operands j = [.dest a, .value b])
    (h : target a = none ∨ resolve b s = none) : exec j s = .next (s.faulted .invalidOperand) := by
  rcases h with ha | hb
  · exact exec_of_unresolved (.dest a) (by simp [hj]) (dest_not_resolves ha s)
  · exact exec_of_unresolved (.value b) (by simp [hj]) (value_not_resolves hb)

end Sys2Proof.Machine

open Sys2Proof Sys2Proof.Machine

/-- Settles O18: the operands resolve and the guard lets the result through or stops it (D6), which it cannot do for
operands in V15, or one of them does not resolve. -/
theorem andOrAreBitwise : Obligations.AndOrAreBitwise := by
  refine fun a b c s => ⟨rfl, rfl,
    fun i u w ha hb hc => ⟨fun hv => ?_, fun hv => ?_, fun hv hf => ?_, fun hv hf => ?_, fun hu hw => ⟨?_, ?_⟩⟩,
    fun h => ⟨?_, ?_⟩⟩
  · exact binaryToReg_of_mayWrite (f := and15) ha hb hc ((mayWrite_iff s _).mpr hv)
  · exact binaryToReg_of_mayWrite (f := or15) ha hb hc ((mayWrite_iff s _).mpr hv)
  · exact binaryToReg_of_high (f := and15) ha hb hc hv hf
  · exact binaryToReg_of_high (f := or15) ha hb hc hv hf
  · exact toNat_and_lt hu w
  · exact toNat_or_lt hu hw
  · exact exec_of_unresolved_dvv rfl h
  · exact exec_of_unresolved_dvv rfl h

/-- Settles O19: the operands resolve and the masked complement passes the guard, or one of them does not resolve. -/
theorem notIsA15BitComplement : Obligations.NotIsA15BitComplement := by
  refine fun a b s => ⟨rfl, fun i u ha hb => ⟨?_, ?_, fun hu => ?_⟩, exec_of_unresolved_dv rfl⟩
  · exact exec_not_of_resolve ha hb
  · exact not15_lt u
  · exact not15_toNat hu

end

section
/-! PROOFS. rmem and wmem (spec 46_memory_access.md): the checked accesses of R52 and R53 inside and outside memory, and
each instruction's answer once its operands are resolved. -/

namespace Sys2Proof.Machine

/-! ## The checked accesses -/

theorem withMemRead_of_lt {addr : Word} (h : addr.toNat < 32768) (s : State) (k : Word → Result) :
    withMemRead addr s k = k (s.mem.readWord addr.toNat) := by
  rw [withMemRead, (memRead_eq_some_iff ..).mpr ⟨h, rfl⟩]

theorem withMemRead_of_ge {addr : Word} (h : 32768 ≤ addr.toNat) (s : State) (k : Word → Result) :
    withMemRead addr s k = raise .addressOutOfRange s := by
  rw [withMemRead, Memory.memRead, if_neg (Nat.not_lt.mpr h)]

theorem withMemWrite_of_ge {addr : Word} (h : 32768 ≤ addr.toNat) (v : Word) (s : State) (k : State → Result) :
    withMemWrite addr v s k = raise .addressOutOfRange s := by
  rw [withMemWrite, Memory.memWrite, if_neg (Nat.not_lt.mpr h)]

/-! ## The instructions, their operands resolved -/

theorem exec_rmem_of_resolve {a b : Arg} {s : State} {i : Reg} {addr : Word} (ha : target a = some i)
    (hb : resolve b s = some addr) : exec (.rmem a b) s = withMemRead addr s fun v => retireReg i v 3 s := by
  change execRmem a b s = _
  rw [execRmem, withTarget_some ha, withValue_some hb]

/-- R171, the address outside memory; `exec_wmem_of_resolve` is the address inside it. -/
theorem exec_wmem_of_ge {a b : Arg} {s : State} {addr v : Word} (ha : resolve a s = some addr)
    (hb : resolve b s = some v) (hge : 32768 ≤ addr.toNat) :
    exec (.wmem a b) s = .next (s.faulted .addressOutOfRange) := by
  change execWmem a b s = _
  rw [execWmem, withValue_some ha, withValue_some hb, withMemWrite_of_ge hge, raise]

end Sys2Proof.Machine

open Sys2Proof Sys2Proof.Machine

/-- Settles O20: the address is inside memory and the guard lets the Word read through or stops it (D6), or the address
is outside memory, or an operand does not resolve. -/
theorem rmemReadsOneWord : Obligations.RmemReadsOneWord := by
  refine fun a b s => ⟨rfl, fun i addr v ha hb hread => ⟨fun hlt hv => ?_, fun hlt hv hf => ?_, fun hge => ?_⟩,
    exec_of_unresolved_dv rfl⟩
  · rw [exec_rmem_of_resolve ha hb, withMemRead_of_lt hlt, hread, retireReg_of_mayWrite ((mayWrite_iff s v).mpr hv)]
    rfl
  · rw [exec_rmem_of_resolve ha hb, withMemRead_of_lt hlt, hread, retireReg_of_high hv hf]
  · rw [exec_rmem_of_resolve ha hb, withMemRead_of_ge hge, raise]

/-- Settles O21: the address is inside memory and the new memory is the one that the store leaves, or the address is
outside memory, or an operand does not resolve. -/
theorem wmemWritesOneWord : Obligations.WmemWritesOneWord := by
  refine fun a b s => ⟨rfl, fun addr v ha hb => ⟨fun hlt => ?_, exec_wmem_of_ge ha hb⟩, exec_of_unresolved_vv rfl⟩
  refine ⟨s.mem.writeWord addr.toNat v, exec_wmem_of_resolve ha hb hlt, ?_, fun x hx => ?_⟩
  · rw [readWord_writeWord, if_pos rfl]
  · rw [readWord_writeWord, if_neg hx]

end

section
/-! PROOFS. call and ret (spec 47_call_return.md): each instruction's answer, call's once its target is resolved. -/

namespace Sys2Proof.Machine

/-- R180: the target is already known when the return address is pushed. -/
theorem exec_call_of_resolve {a : Arg} {s : State} {t : Word} (ha : resolve a s = some t) :
    exec (.call a) s = withPushed (s.ipAfter 2) s fun s' => .next (s'.jumpTo t) :=
  withValue_some ha _

theorem exec_ret_of_concat {s : State} {st : List Word} {t : Word} (h : s.stack = st ++ [t]) :
    exec .ret s = .next ((s.setStack st).jumpTo t) := by
  change execRet s = _
  rw [execRet, withPopped_concat h]

theorem exec_ret_of_nil {s : State} (h : s.stack = []) : exec .ret s = .next (s.halted .retEmpty) := by
  change execRet s = _
  rw [execRet, withPopped_nil h]

end Sys2Proof.Machine

open Sys2Proof Sys2Proof.Machine

/-- Settles O22: the target resolves and the stack has room for the return address or is full (D7), or the target does
not resolve. -/
theorem callPushesTheReturnAddress : Obligations.CallPushesTheReturnAddress := by
  refine fun a s => ⟨rfl, fun t ha => ⟨fun hroom => ?_, fun hfull => ?_⟩, fun ha => ?_⟩
  · rw [exec_call_of_resolve ha, withPushed_of_room hroom]
    rfl
  · rw [exec_call_of_resolve ha, withPushed_of_full hfull, raise]
  · exact exec_of_unresolved (.value a) (by simp [operands]) (value_not_resolves ha)

/-- Settles O23: the stack has a top, or it is empty and ret halts where it stands (D11). -/
theorem retPopsThePc : Obligations.RetPopsThePc :=
  ⟨rfl, fun _ => ⟨fun _ _ => exec_ret_of_concat, exec_ret_of_nil⟩⟩

/-- Settles O48: the return address is the top of the stack that the ret finds, and below it is the stack as it was. -/
theorem retUndoesCall : Obligations.RetUndoesCall := by
  intro a s dst ha hroom
  obtain ⟨-, hcall, -⟩ := callPushesTheReturnAddress a s
  obtain ⟨hcomplete, -⟩ := hcall dst ha
  obtain ⟨-, hret⟩ := retPopsThePc
  obtain ⟨hreturn, -⟩ := hret { s with stack := s.stack ++ [s.pc + 2], pc := dst }
  exact ⟨_, hcomplete hroom, rfl, hreturn s.stack (s.pc + 2) rfl⟩

end

section
/-! PROOFS. halt, out, in and noop (spec 48_io_system.md): each instruction's answer, out's and in's once the operand is
resolved. -/

namespace Sys2Proof.Machine

theorem exec_out_of_resolve {a : Arg} {s : State} {v : Word} (ha : resolve a s = some v) :
    exec (.out a) s = .next ((s.emit v).advance 2) :=
  withValue_some ha _

theorem exec_in_of_cons {a : Arg} {s : State} {i : Reg} {b : Byte} {q : List Byte} (ha : target a = some i)
    (hq : s.inq = b :: q) : exec (.input a) s = .next (((s.setInq q).setReg i (zext16 b)).advance 2) := by
  change execIn a s = _
  rw [execIn, withTarget_some ha, hq]

theorem exec_in_of_nil {a : Arg} {s : State} {i : Reg} (ha : target a = some i) (hq : s.inq = []) :
    exec (.input a) s = .next (if s.cfg.interactive then s.waiting else s.halted .inputExhausted) := by
  change execIn a s = _
  rw [execIn, withTarget_some ha, hq]

end Sys2Proof.Machine

open Sys2Proof Sys2Proof.Machine

/-- Settles O24: the decoder takes nothing after the opcode, and the effect is the entry of a halt. -/
theorem haltStopsGracefully : Obligations.HaltStopsGracefully :=
  ⟨rfl, fun _ => rfl, fun _ => rfl⟩

/-- Settles O25: the operand resolves, or it does not. -/
theorem outEmitsTheValue : Obligations.OutEmitsTheValue := by
  refine fun a s => ⟨rfl, fun v ha => exec_out_of_resolve ha, fun ha => ?_⟩
  exact exec_of_unresolved (.value a) (by simp [operands]) (value_not_resolves ha)

/-- Settles O26: the queue has a head, or it is empty and INTERACTIVE decides, or the destination is no register, which
is checked first (D8). -/
theorem inTakesOneByte : Obligations.InTakesOneByte := by
  refine fun a s => ⟨rfl, fun i ha => ⟨fun b q hq => ?_, fun hq hc => ?_, fun hq hc => ?_⟩, fun ha => ?_⟩
  · exact exec_in_of_cons ha hq
  · rw [exec_in_of_nil ha hq, hc]
    rfl
  · rw [exec_in_of_nil ha hq, hc]
    rfl
  · exact exec_of_unresolved (.dest a) (by simp [operands]) (dest_not_resolves ha s)

/-- Settles O27: the effect is the next pc alone. -/
theorem noopOnlyAdvances : Obligations.NoopOnlyAdvances :=
  ⟨rfl, fun _ => rfl⟩

end

section
/-! PROOFS. The steps after which the machine is not RUNNING (spec 40_execution.md R100; 48_io_system.md R203;
60_exceptions.md R211, R220): what state a fault, a halt and a wait leave, and that a fault is final. -/

namespace Sys2Proof.Machine

/-- Where the machine waits (R203): at an `in`, with an empty queue and INTERACTIVE. -/
abbrev WaitCause (s : State) : Prop :=
  (∃ i : Reg, decode (fetchWindow s) = .ok (.input (.reg i))) ∧ s.inq = [] ∧ s.cfg.interactive = true

/-- A step that leaves RUNNING does so by the entry of a fault, of a halt or of a wait, on the state it started from or
on the traced one. -/
theorem step_stops {s t : State} (h : step s = .next t) (ht : t.status.runState ≠ .running) :
    (∃ kind, t = s.faulted kind ∨ t = s.traced.faulted kind) ∨
      (∃ reason, HaltCause s reason ∧ t = s.traced.halted reason) ∨ (WaitCause s ∧ t = s.traced.waiting) := by
  obtain ⟨hrun, -⟩ := step_next h
  rcases stepHasOneOfFourOutcomes s t h with
    ⟨i, -, -, -, hst⟩ | ⟨e, -, rfl⟩ | ⟨i, kind, -, -, rfl⟩ | ⟨hd, rfl⟩ | ⟨hd, hst, rfl⟩ | ⟨r, hd, hq, htr⟩
  · exact absurd (hst ▸ hrun) ht
  · exact .inl ⟨_, .inl rfl⟩
  · exact .inl ⟨kind, .inr rfl⟩
  · exact .inr (.inl ⟨.haltInstr, hd, rfl⟩)
  · exact .inr (.inl ⟨.retEmpty, ⟨hd, hst⟩, rfl⟩)
  · cases hc : s.cfg.interactive with
    | true => exact .inr (.inr ⟨⟨⟨r, hd⟩, hq, hc⟩, by simpa [hc] using htr⟩)
    | false => exact .inr (.inl ⟨.inputExhausted, ⟨⟨r, hd⟩, hq, hc⟩, by simpa [hc] using htr⟩)

theorem step_faulted {s t : State} (h : step s = .next t) (ht : t.status.runState = .faulted) :
    ∃ kind, t = s.faulted kind ∨ t = s.traced.faulted kind := by
  rcases step_stops h (by simp [ht]) with hf | ⟨reason, -, rfl⟩ | ⟨-, rfl⟩
  · exact hf
  · cases ht
  · cases ht

theorem step_halted {s t : State} (h : step s = .next t) (ht : t.status.runState = .halted) :
    ∃ reason, HaltCause s reason ∧ t = s.traced.halted reason := by
  rcases step_stops h (by simp [ht]) with ⟨kind, rfl | rfl⟩ | hh | ⟨-, rfl⟩
  · cases ht
  · cases ht
  · exact hh
  · cases ht

theorem step_waiting {s t : State} (h : step s = .next t) (ht : t.status.runState = .waitInput) :
    WaitCause s ∧ t = s.traced.waiting := by
  rcases step_stops h (by simp [ht]) with ⟨kind, rfl | rfl⟩ | ⟨reason, -, rfl⟩ | hw
  · cases ht
  · cases ht
  · cases ht
  · exact hw

/-- The trace event is all that stage 2 adds (R230). -/
theorem traced_eq (s : State) : s.traced = { s with events := s.traced.events } := by
  unfold State.traced; split <;> rfl

/-- No transaction is open to the host in FAULTED (R211, D21). -/
theorem hostMove_of_faulted {s : State} (h : s.status.runState = .faulted) (m : HostMove) :
    hostMove m s = .error (.notAllowedIn .faulted) := by
  have hno := betweenRuns_of_not_allowed (s := s) (by simp [h]) (by simp [h])
  rw [h] at hno
  cases m with
  | run | enqueue bytes | clearInput | clearOutput => exact hno _
  | supplyLine bytes => simp [hostMove, hostSupplyLine, h]

end Sys2Proof.Machine

open Sys2Proof Sys2Proof.Machine

/-- Settles O8: the entry by its definition; a step that ends in FAULTED is such an entry on the state before it or on
the traced one; and in FAULTED the step and each transaction look at RUN_STATE first. -/
theorem faultsArePreciseAndFinal : Obligations.FaultsArePreciseAndFinal := by
  refine ⟨fun _ _ => rfl, fun s t h ht => ?_, fun s h => ⟨by rw [step, h], hostMove_of_faulted h⟩⟩
  obtain ⟨kind, rfl | rfl⟩ := step_faulted h ht
  · exact ⟨⟨kind, rfl⟩, rfl, .inl rfl⟩
  · rw [traced_eq s]
    exact ⟨⟨kind, rfl⟩, rfl, .inr rfl⟩

end

section
/-! PROOFS. What follows a wait and a halt (spec 48_io_system.md R203, R205; 70_reset_and_hazards.md R250): the
instruction that pc kept is run again. -/

namespace Sys2Proof.Machine

/-! ## The instruction that pc kept -/

/-- What makes the machine halt makes it halt, whenever it is RUNNING. -/
theorem step_of_haltCause {s : State} {reason : HaltReason} (hrun : s.status.runState = .running)
    (h : HaltCause s reason) : step s = .next (s.traced.halted reason) := by
  cases reason with
  | haltInstr => exact step_of_decode hrun h
  | retEmpty =>
    obtain ⟨hd, hst⟩ := h
    rw [step_of_decode hrun hd, exec_ret_of_nil ((traced_stack s).trans hst)]
  | inputExhausted =>
    obtain ⟨⟨i, hd⟩, hq, hc⟩ := h
    rw [step_of_decode hrun hd, exec_in_of_nil rfl ((traced_inq s).trans hq), traced_cfg, hc]
    rfl

/-- The causes of a halt lie in pc, memory, stack, queue and configuration, which the trace event and the halt leave
alone. -/
theorem haltCause_of_halted {s : State} {reason : HaltReason} (h : HaltCause s reason) :
    HaltCause (s.traced.halted reason) reason := by
  cases reason <;> simpa [HaltCause, fetchWindow] using h

theorem step_in_of_cons {s : State} {i : Reg} {b : Byte} {q : List Byte} (hrun : s.status.runState = .running)
    (hd : decode (fetchWindow s) = .ok (.input (.reg i))) (hq : s.inq = b :: q) :
    step s = .next (((s.traced.setInq q).setReg i (zext16 b)).advance 2) := by
  rw [step_of_decode hrun hd, exec_in_of_cons rfl ((traced_inq s).trans hq)]

/-! ## A new run after a halt -/

theorem hostMove_run_of_allowed {s : State} (h : s.status.runState = .loaded ∨ s.status.runState = .halted) :
    hostMove .run s = .ok s.startRun :=
  betweenRuns_of_allowed h _

theorem hostMove_enqueue_of_halted {s : State} (h : s.status.runState = .halted) (bytes : List Byte) :
    hostMove (.enqueue bytes) s = .ok (s.setInq (s.inq ++ bytes)) :=
  betweenRuns_of_allowed (.inr h) _

theorem hostMove_supplyLine_of_waitInput {s : State} {line : List Byte} (h : s.status.runState = .waitInput)
    (hline : line ≠ []) : hostMove (.supplyLine line) s = .ok (s.setInq (s.inq ++ line)).resume := by
  simp [hostMove, hostSupplyLine, h, hline]

/-- A run that is started where the machine halted halts there again (D11). -/
theorem rerun_halts {s : State} {reason : HaltReason} (h : HaltCause s reason) :
    ∃ u v : State, hostMove .run (s.traced.halted reason) = .ok u ∧ step u = .next v ∧
      { v with events := (s.traced.halted reason).events } = s.traced.halted reason := by
  have hcause : HaltCause (s.traced.halted reason).startRun reason := haltCause_of_halted h
  refine ⟨_, _, hostMove_run_of_allowed (.inr rfl), step_of_haltCause rfl hcause, ?_⟩
  rw [traced_eq (s.traced.halted reason).startRun]
  rfl

end Sys2Proof.Machine

open Sys2Proof Sys2Proof.Machine

/-- Settles O51: the line stands in the queue of the machine that runs the `in` again, with the status record from
before the wait. -/
theorem suppliedLineCompletesTheIn : Obligations.SuppliedLineCompletesTheIn := by
  intro s t b line h ht
  obtain ⟨hrun, -⟩ := step_next h
  obtain ⟨⟨⟨i, hd⟩, hq, -⟩, rfl⟩ := step_waiting h ht
  refine ⟨i, _, _, hd, hostMove_supplyLine_of_waitInput rfl (List.cons_ne_nil b line),
    step_in_of_cons (i := i) (b := b) (q := line) rfl ?_ ?_, ?_⟩
  · simpa [fetchWindow] using hd
  · simp [hq]
  · simp [zext16, State.ipAfter, ← hrun]

/-- Settles O53: the bytes stand in the queue of the machine that runs the `in` again; with none, what made it halt
makes it halt again. -/
theorem rerunTakesTheEnqueuedByte : Obligations.RerunTakesTheEnqueuedByte := by
  intro s t h ht hreason
  obtain ⟨hrun, -⟩ := step_next h
  obtain ⟨reason, hcause, rfl⟩ := step_halted h ht
  cases hreason
  refine ⟨fun b bytes => ?_, rerun_halts hcause⟩
  obtain ⟨⟨i, hd⟩, hq, -⟩ := hcause
  refine ⟨i, _, _, _, hd, hostMove_enqueue_of_halted rfl _, hostMove_run_of_allowed (.inr rfl),
    step_in_of_cons (i := i) (b := b) (q := bytes) rfl ?_ ?_, ?_⟩
  · simpa [fetchWindow] using hd
  · simp [hq]
  · simp [zext16, State.ipAfter, ← hrun]

/-- Settles O52: a halt for HALT_INSTR or RET_EMPTY has its cause in what a new run finds. -/
theorem haltedRunHaltsAgain : Obligations.HaltedRunHaltsAgain := by
  intro s t h ht _
  obtain ⟨reason, hcause, rfl⟩ := step_halted h ht
  exact rerun_halts hcause

end

section
/-! PROOFS. Runs (spec 70_reset_and_hazards.md R250, R251): where the steps of a run stop, where a run ends past its
waits, and a run that does not end. -/

namespace Sys2Proof.Machine

/-! ## The state after the last step -/

theorem runEnded_of_faulted (kind : FaultKind) (s : State) : (s.faulted kind).RunEnded :=
  .inr ⟨rfl, kind, rfl⟩

theorem runEnded_of_halted {s : State} {reason : HaltReason} (h : HaltCause s reason) :
    (s.traced.halted reason).RunEnded :=
  .inl ⟨rfl, reason, rfl, haltCause_of_halted h⟩

theorem runSuspended_of_waiting {s : State} (h : WaitCause s) : s.traced.waiting.RunSuspended :=
  ⟨rfl, by simpa [WaitCause, fetchWindow] using h⟩

/-- A step that leaves RUNNING ends the run or suspends it. -/
theorem runEnded_or_runSuspended {s t : State} (h : step s = .next t) (ht : t.status.runState ≠ .running) :
    t.RunEnded ∨ t.RunSuspended := by
  rcases step_stops h ht with ⟨kind, rfl | rfl⟩ | ⟨reason, hcause, rfl⟩ | ⟨hcause, rfl⟩
  · exact .inl (runEnded_of_faulted kind s)
  · exact .inl (runEnded_of_faulted kind s.traced)
  · exact .inl (runEnded_of_halted hcause)
  · exact .inr (runSuspended_of_waiting hcause)

theorem State.RunEnded.runState {s : State} (h : s.RunEnded) :
    s.status.runState = .halted ∨ s.status.runState = .faulted := by
  rcases h with ⟨h, -⟩ | ⟨h, -⟩
  · exact .inl h
  · exact .inr h

theorem runEnded_of_runState {s t : State} (h : step s = .next t)
    (ht : t.status.runState = .halted ∨ t.status.runState = .faulted) : t.RunEnded := by
  rcases runEnded_or_runSuspended h (by rcases ht with ht | ht <;> simp [ht]) with he | ⟨hw, -⟩
  · exact he
  · rcases ht with ht | ht <;> cases ht.symm.trans hw

/-! ## The two executors, one step of fuel at a time -/

theorem runUntilStop_succ_iff (n : Nat) (s t : State) :
    runUntilStop (n + 1) s = some t ↔ ∃ u, step s = .next u ∧
      (u.status.runState = .running ∧ runUntilStop n u = some t ∨ u.status.runState ≠ .running ∧ u = t) := by
  rw [runUntilStop]
  cases step s with
  | next u => by_cases hu : u.status.runState = .running <;> simp [hu]
  | fault r | refused r => simp

/-- The next line and the lines after it are read off the list. -/
theorem exists_cons_eq_iff {line : List Byte} {rest : List (List Byte)}
    {p : List Byte → List (List Byte) → State → Prop} :
    (∃ line' rest' u, line :: rest = line' :: rest' ∧ p line' rest' u) ↔ ∃ u, p line rest u := by
  constructor
  · rintro ⟨line', rest', u, heq, hp⟩
    cases heq
    exact ⟨u, hp⟩
  · rintro ⟨u, hp⟩
    exact ⟨line, rest, u, rfl, hp⟩

theorem runToEnd_succ_iff (n : Nat) (lines : List (List Byte)) (s e : State) :
    runToEnd (n + 1) lines s = some e ↔ ∃ t, step s = .next t ∧
      (t.status.runState = .running ∧ runToEnd n lines t = some e ∨
        (t.status.runState = .halted ∨ t.status.runState = .faulted) ∧ t = e ∨
        t.status.runState = .waitInput ∧ ∃ line rest u, lines = line :: rest ∧
          hostMove (.supplyLine line) t = .ok u ∧ runToEnd n rest u = some e) := by
  rw [runToEnd]
  cases step s with
  | fault r | refused r => simp
  | next t =>
    cases ht : t.status.runState with
    | loaded | running | halted | faulted => simp [ht]
    | waitInput =>
      cases lines with
      | nil => simp [ht]
      | cons line rest =>
        simp only [exists_cons_eq_iff]
        cases hu : hostMove (.supplyLine line) t <;> simp [ht, hu]

/-! ## More fuel -/

theorem runUntilStop_mono {n m : Nat} {s t : State} (h : runUntilStop n s = some t) (hle : n ≤ m) :
    runUntilStop m s = some t := by
  induction n generalizing m s with
  | zero => cases h
  | succ n ih =>
    obtain ⟨m, rfl⟩ := Nat.exists_eq_add_of_le' (Nat.lt_of_lt_of_le n.succ_pos hle)
    rw [runUntilStop_succ_iff] at h ⊢
    obtain ⟨u, hu, ⟨hrun, h⟩ | hstop⟩ := h
    · exact ⟨u, hu, .inl ⟨hrun, ih h (Nat.le_of_succ_le_succ hle)⟩⟩
    · exact ⟨u, hu, .inr hstop⟩

theorem runToEnd_mono {n m : Nat} {lines : List (List Byte)} {s e : State} (h : runToEnd n lines s = some e)
    (hle : n ≤ m) : runToEnd m lines s = some e := by
  induction n generalizing m lines s with
  | zero => cases h
  | succ n ih =>
    obtain ⟨m, rfl⟩ := Nat.exists_eq_add_of_le' (Nat.lt_of_lt_of_le n.succ_pos hle)
    have hle : n ≤ m := Nat.le_of_succ_le_succ hle
    rw [runToEnd_succ_iff] at h ⊢
    obtain ⟨t, ht, ⟨hrun, h⟩ | hend | ⟨hw, line, rest, u, hlines, hu, h⟩⟩ := h
    · exact ⟨t, ht, .inl ⟨hrun, ih h hle⟩⟩
    · exact ⟨t, ht, .inr (.inl hend)⟩
    · exact ⟨t, ht, .inr (.inr ⟨hw, line, rest, u, hlines, hu, ih h hle⟩)⟩

/-! ## Where a run stops and where it ends -/

theorem runUntilStop_ended_or_suspended {n : Nat} {s t : State} (h : runUntilStop n s = some t) :
    t.RunEnded ∨ t.RunSuspended := by
  induction n generalizing s with
  | zero => cases h
  | succ n ih =>
    obtain ⟨u, hu, ⟨-, h⟩ | ⟨hstop, rfl⟩⟩ := (runUntilStop_succ_iff ..).mp h
    · exact ih h
    · exact runEnded_or_runSuspended hu hstop

theorem runToEnd_ended {n : Nat} {lines : List (List Byte)} {s e : State} (h : runToEnd n lines s = some e) :
    e.RunEnded := by
  induction n generalizing lines s with
  | zero => cases h
  | succ n ih =>
    obtain ⟨t, ht, ⟨-, h⟩ | ⟨hend, rfl⟩ | ⟨-, line, rest, u, -, -, h⟩⟩ := (runToEnd_succ_iff ..).mp h
    · exact ih h
    · exact runEnded_of_runState ht hend
    · exact ih h

/-- No Wait comes before the end: no line is used. -/
theorem runToEnd_of_runUntilStop {n : Nat} {s t : State} (h : runUntilStop n s = some t) (ht : t.RunEnded)
    (lines : List (List Byte)) : runToEnd n lines s = some t := by
  induction n generalizing s with
  | zero => cases h
  | succ n ih =>
    rw [runToEnd_succ_iff]
    obtain ⟨u, hu, ⟨hrun, h⟩ | ⟨-, rfl⟩⟩ := (runUntilStop_succ_iff ..).mp h
    · exact ⟨u, hu, .inl ⟨hrun, ih h⟩⟩
    · exact ⟨u, hu, .inr (.inl ⟨ht.runState, rfl⟩)⟩

/-- A Wait that no line answers. -/
theorem runToEnd_nil_of_suspended {n : Nat} {s t : State} (h : runUntilStop n s = some t)
    (ht : t.status.runState = .waitInput) (m : Nat) : runToEnd m [] s = none := by
  induction n generalizing m s with
  | zero => cases h
  | succ n ih =>
    cases m with
    | zero => rfl
    | succ m =>
      obtain ⟨u, hu, ⟨hrun, h⟩ | ⟨-, rfl⟩⟩ := (runUntilStop_succ_iff ..).mp h
      · rw [runToEnd, hu]
        simp only [hrun]
        exact ih h m
      · rw [runToEnd, hu]
        simp only [ht]

/-- A Wait that a line answers: the run goes on from the state that the line leaves. -/
theorem runToEnd_cons_of_suspended {n m : Nat} {line : List Byte} {lines : List (List Byte)} {s t u e : State}
    (h : runUntilStop n s = some t) (ht : t.status.runState = .waitInput)
    (hu : hostMove (.supplyLine line) t = .ok u) (he : runToEnd m lines u = some e) :
    runToEnd (n + m) (line :: lines) s = some e := by
  induction n generalizing s with
  | zero => cases h
  | succ n ih =>
    rw [Nat.succ_add, runToEnd_succ_iff]
    obtain ⟨t', ht', ⟨hrun, h⟩ | ⟨-, rfl⟩⟩ := (runUntilStop_succ_iff ..).mp h
    · exact ⟨t', ht', .inl ⟨hrun, ih h⟩⟩
    · exact ⟨t', ht', .inr (.inr ⟨ht, line, lines, u, rfl, hu, runToEnd_mono he (Nat.le_add_left m n)⟩)⟩

/-! ## A jump to itself -/

/-- The instruction at pc of a RUNNING machine is a jmp to pc. -/
def State.JumpsToItself (a : Arg) (s : State) : Prop :=
  s.status.runState = .running ∧ decode (fetchWindow s) = .ok (.jmp a) ∧ resolve a s = some s.pc

theorem step_jumpsToItself {a : Arg} {s : State} (h : s.JumpsToItself a) :
    step s = .next (s.traced.jumpTo s.pc) ∧ (s.traced.jumpTo s.pc).JumpsToItself a := by
  obtain ⟨hrun, hd, ha⟩ := h
  have hregs (u : State) (hu : u.regs = s.regs) : resolve a u = some s.pc := (resolve_congr a hu).trans ha
  refine ⟨?_, by simpa using hrun, by simpa [fetchWindow] using hd, hregs _ (by simp)⟩
  rw [step_of_decode hrun hd, exec_jmp_of_resolve (hregs _ (traced_regs s))]

theorem runToEnd_of_jumpsToItself {a : Arg} {s : State} (h : s.JumpsToItself a) (n : Nat)
    (lines : List (List Byte)) : runToEnd n lines s = none := by
  induction n generalizing s with
  | zero => rfl
  | succ n ih =>
    obtain ⟨hstep, hagain⟩ := step_jumpsToItself h
    have ⟨hrun, _, _⟩ := hagain
    rw [runToEnd, hstep]
    simp only [hrun]
    exact ih hagain

end Sys2Proof.Machine

open Sys2Proof Sys2Proof.Machine

/-- Settles O54, by induction on the fuel: the last step decides where the steps stop, and the fuel and the lines left
over decide nothing. -/
theorem runEndIsDefinite : Obligations.RunEndIsDefinite := by
  refine ⟨fun n m s t h hle => ?_, fun n m lines s t h hle => ?_, fun n s t h => ⟨fun he => ?_, fun hs => ?_⟩,
    fun s a hrun hd ha => ?_⟩
  · exact ⟨runUntilStop_mono h hle, runUntilStop_ended_or_suspended h⟩
  · exact ⟨runToEnd_mono h hle, runToEnd_ended h⟩
  · exact runToEnd_of_runUntilStop h he
  · obtain ⟨hw, -⟩ := hs
    exact ⟨runToEnd_nil_of_suspended h hw, fun _ _ _ hu _ _ he => runToEnd_cons_of_suspended h hw hu he⟩
  · exact runToEnd_of_jumpsToItself ⟨hrun, hd, ha⟩

end

section
/-! PROOFS. Creation and boot (spec 70_reset_and_hazards.md R240, R241): what a new machine holds, the Words of an image
and the run of an empty one. -/

namespace Sys2Proof.Machine

/-- A cell of a loaded image is its two bytes, the low one first, and the bytes beyond the image are 0 (R55, R241). -/
theorem readWord_ofImage_toNat (image : List Byte) (k : Nat) :
    (Memory.readWord (Memory.ofImage 0 image) k).toNat =
      (image.getD (2 * k) 0).toNat + 256 * (image.getD (2 * k + 1) 0).toNat := by
  rw [Memory.readWord, wordOfBytes_toNat]
  simp [readByte_ofImage]

theorem boot_of_even {image : List Byte} (hlen : image.length ≤ 65536) (heven : image.length % 2 = 0) (cfg : Config) :
    boot cfg image = .ok ((State.create cfg).setMem (Memory.ofImage 0 image)) := by
  rw [boot, if_neg (by omega), if_neg (by omega)]

/-- Memory that is 0 at pc holds a halt there. -/
theorem haltCause_of_zero {s : State} (hpc : s.pc.toNat < 32768) (h : s.mem.readWord s.pc.toNat = 0) :
    HaltCause s .haltInstr := by
  obtain ⟨ws, hws⟩ := fetchWindow_head hpc
  rw [HaltCause, hws, h]
  rfl

end Sys2Proof.Machine

open Sys2Proof Sys2Proof.Machine

/-- Settles O44: the memory of a created machine lists nothing, which is canonical. -/
theorem invariantHoldsAtReset : Obligations.InvariantHoldsAtReset :=
  ⟨create_setMem_inv Config.default wf_nil, fun cfg => create_setMem_inv cfg wf_nil⟩

/-- Settles O55, field by field. -/
theorem creationClearsTheState : Obligations.CreationClearsTheState := by
  refine fun cfg => ⟨rfl, fun i => ?_, rfl, rfl, readWord_nil, rfl, rfl, rfl, rfl⟩
  simp [State.create]

/-- Settles O56: the size is looked at before the parity, and the loaded memory is the image's. -/
theorem bootLoadsTheImage : Obligations.BootLoadsTheImage := by
  refine fun cfg image => ⟨fun h => if_pos h, fun hlen hodd => ?_, fun hlen heven => ?_⟩
  · rw [boot, if_neg (by omega), if_pos hodd]
  · exact ⟨Memory.ofImage 0 image, boot_of_even hlen heven cfg, wfFrom_ofImage image 0 (by omega),
      fun k _ => readWord_ofImage_toNat image k⟩

/-- Settles O57: the Word at address 0 of an empty memory is 0, a halt. -/
theorem emptyImageHaltsAtOnce : Obligations.EmptyImageHaltsAtOnce := by
  intro cfg
  have hpc : (State.create cfg).startRun.pc.toNat < 32768 := Nat.zero_lt_succ _
  have hcause : HaltCause (State.create cfg).startRun .haltInstr := haltCause_of_zero hpc (readWord_nil 0)
  have hboot : boot cfg [] = .ok (State.create cfg) := rfl
  have hrun : hostMove .run (State.create cfg) = .ok (State.create cfg).startRun := hostMove_run_of_allowed (.inl rfl)
  exact ⟨_, _, _, hboot, hrun, step_of_haltCause rfl hcause, rfl, rfl, traced_pc _⟩

end

section
/-! PROOFS. The host's placing of a table word (assumption log 9): the fetch reads back the Words it stored. -/

namespace Sys2Proof.Machine

/-- Four Words fit where the host places them. -/
theorem placeAt_fits (s : State) : s.placeAt.toNat + 4 ≤ 32768 := by
  unfold State.placeAt
  split
  · assumption
  · decide

/-- A window of memory onto Words just written there is these Words. -/
theorem window_writeWords {m : Memory} {a : Nat} {ws : List Word} (h : a + ws.length ≤ 32768) :
    (m.writeWords a ws).window ws.length a = ws := by
  apply List.ext_getElem?
  intro k
  rw [window_getElem?, readWord_writeWords, if_pos (Nat.le_add_right a k), Nat.add_sub_cancel_left]
  by_cases hk : k < ws.length
  · rw [if_pos ⟨hk, by omega⟩, List.getElem?_eq_getElem hk, Option.getD_some]
  · rw [if_neg (fun hlt => hk hlt.1), List.getElem?_eq_none (Nat.not_lt.mp hk)]

theorem fetchWindow_withFetchWord (s : State) (nbits w : Nat) :
    fetchWindow (s.withFetchWord nbits w) = tableWords nbits w :=
  window_writeWords (ws := tableWords nbits w) (placeAt_fits s)

theorem decodeTableWord_eq_some_iff (nbits w : Nat) (i : Instr) :
    decodeTableWord nbits w = some i ↔ decode (tableWords nbits w) = .ok i := by
  unfold decodeTableWord
  cases decode (tableWords nbits w) <;> simp

end Sys2Proof.Machine

open Sys2Proof Sys2Proof.Machine

/-- Settles O30: the placed Words are the whole fetch window, and the run is started. -/
theorem placedWordIsRunNext : Obligations.PlacedWordIsRunNext := by
  intro s nbits w i h
  rw [decodeTableWord_eq_some_iff, ← fetchWindow_withFetchWord s] at h
  exact step_of_decode rfl h

end
